-- ==== Sys2Proof/Word.lean ====
section
/-!
DEFINITION. The words that travel on MDSB's two ports and the plainest arithmetic on naturals.

Registers and operands are `BitVec n` with the width spec/10_state.md R20 and spec/30_encoding.md R91 give them; the
arithmetic of the pseudocode is on unbounded integers (spec/00_scope.md R6) and is done on `Nat` and `Int`.
-/

namespace Sys2Proof

/-- A command word: 64 bits, CMD_W of spec/00_scope.md R5. -/
abbrev CmdWord := BitVec 64

/-- A response word: 64 bits, RSP_W of spec/00_scope.md R5. -/
abbrev RspWord := BitVec 64

/-- `ceil(a / b)` of spec/00_scope.md R8, for `b > 0`. -/
def ceilDiv (a b : Nat) : Nat := (a + (b - 1)) / b

end Sys2Proof
end

