-- ==== Sys2Proof/Syntax.lean ====
section
/-!
DEFINITION. The 23 commands of spec/30_encoding.md R93, one constructor per row of spec/opcode_table.json, and the
assembler's source forms (R98, R99).

An operand is a bit vector of the width its format gives it (R91), so a command whose operand does not fit its field
cannot be written down. Terms that can be ill formed are the assembler's: `SourceLine` and `Pseudo`, whose operands are
numbers; WellFormed.lean checks them.
-/

namespace Sys2Proof

/-- A command with its operands, spec/30_encoding.md R92 and R93. -/
inductive Instr where
  /-- SYS.NOP, spec/40_sys.md R120. -/
  | sysNop
  /-- SYS.RESET, spec/40_sys.md R121. -/
  | sysReset
  /-- ENV.STEP, spec/41_envelope.md R131. -/
  | envStep
  /-- ENV.GATE, spec/41_envelope.md R132. -/
  | envGate
  /-- ENV.SETA t, s, spec/41_envelope.md R133. -/
  | envSeta (t sr : BitVec 24)
  /-- ENV.SETR t, s, spec/41_envelope.md R135. -/
  | envSetr (t sr : BitVec 24)
  /-- ENV.STAT, spec/41_envelope.md R136. -/
  | envStat
  /-- ENV.RDA, spec/41_envelope.md R137. -/
  | envRda
  /-- ENV.RDR, spec/41_envelope.md R138. -/
  | envRdr
  /-- OSC.STEP, spec/42_oscillator.md R161. -/
  | oscStep
  /-- OSC.SETSR s, spec/42_oscillator.md R162. -/
  | oscSetsr (sr : BitVec 24)
  /-- OSC.SETF w, spec/42_oscillator.md R164. -/
  | oscSetf (w : BitVec 32)
  /-- OSC.STAT, spec/42_oscillator.md R165. -/
  | oscStat
  /-- OSC.RDD, spec/42_oscillator.md R166. -/
  | oscRdd
  /-- RB.PUSH w, spec/43_ringbuffer.md R193. -/
  | rbPush (w : BitVec 32)
  /-- RB.POP, spec/43_ringbuffer.md R194. -/
  | rbPop
  /-- RB.AT i, spec/43_ringbuffer.md R195. -/
  | rbAt (idx : BitVec 16)
  /-- RB.CLEAR, spec/43_ringbuffer.md R196. -/
  | rbClear
  /-- RB.SIZE, spec/43_ringbuffer.md R197. -/
  | rbSize
  /-- MIDI.PARSE b, spec/44_midi.md R223. -/
  | midiParse (b : BitVec 8)
  /-- MIDI.AVAIL, spec/44_midi.md R225. -/
  | midiAvail
  /-- MIDI.POP, spec/44_midi.md R226. -/
  | midiPop
  /-- MIDI.STAT, spec/44_midi.md R227. -/
  | midiStat
deriving DecidableEq, Repr

/-- The 23 names of spec/30_encoding.md R93, without operands. -/
inductive Mnemonic where
  | sysNop | sysReset
  | envStep | envGate | envSeta | envSetr | envStat | envRda | envRdr
  | oscStep | oscSetsr | oscSetf | oscStat | oscRdd
  | rbPush | rbPop | rbAt | rbClear | rbSize
  | midiParse | midiAvail | midiPop | midiStat
deriving DecidableEq, Repr

/-- The six operand formats of spec/30_encoding.md R91. -/
inductive Format where
  | z | t | s | w | i | b
deriving DecidableEq, Repr

/-- One line of assembler source with its literals read as numbers, spec/30_encoding.md R98. -/
structure SourceLine where
  mnemonic : Mnemonic
  operands : List Nat
deriving DecidableEq, Repr

/-- The pseudo-commands of spec/30_encoding.md R99. -/
inductive Pseudo where
  | envStepN (n : Nat)
  | oscStepN (n : Nat)
  | oscSetHz (h : Nat)
  | midiFeed (bytes : List Nat)
  | rbDrop (n : Nat)
deriving DecidableEq, Repr

end Sys2Proof
end

