-- ==== Sys2Proof/Decode.lean ====
section
/-!
DEFINITION. The decoder of spec/30_encoding.md R94, the encoder beside it, and the opcode map of R93 as a table.

The decoder is total on all 2^64 words and reads no state. A rejected word carries the reason of R95 it falls under; all
three are answered alike, by ERR(ILLEGAL).
-/

namespace Sys2Proof

/-- Why a word is no command, spec/30_encoding.md R95 (a), (b), (c). All three are safe: the block answers ERR(ILLEGAL). -/
inductive Illegal where
  /-- (a) the opcode is not in R93. -/
  | unlistedOpcode
  /-- (b) a listed opcode with a nonzero rsv field. -/
  | reservedField
  /-- (c) a listed opcode with a 1 in a must-be-zero operand bit. -/
  | operandPadding
deriving DecidableEq, Repr

/-- The mnemonic a command is written with. -/
def Instr.mnemonic : Instr → Mnemonic
  | .sysNop => .sysNop
  | .sysReset => .sysReset
  | .envStep => .envStep
  | .envGate => .envGate
  | .envSeta _ _ => .envSeta
  | .envSetr _ _ => .envSetr
  | .envStat => .envStat
  | .envRda => .envRda
  | .envRdr => .envRdr
  | .oscStep => .oscStep
  | .oscSetsr _ => .oscSetsr
  | .oscSetf _ => .oscSetf
  | .oscStat => .oscStat
  | .oscRdd => .oscRdd
  | .rbPush _ => .rbPush
  | .rbPop => .rbPop
  | .rbAt _ => .rbAt
  | .rbClear => .rbClear
  | .rbSize => .rbSize
  | .midiParse _ => .midiParse
  | .midiAvail => .midiAvail
  | .midiPop => .midiPop
  | .midiStat => .midiStat

/-- The opcode byte `unit ++ fn` of spec/30_encoding.md R93. -/
def Mnemonic.opcode : Mnemonic → BitVec 8
  | .sysNop => 0x00
  | .sysReset => 0x01
  | .envStep => 0x10
  | .envGate => 0x11
  | .envSeta => 0x12
  | .envSetr => 0x13
  | .envStat => 0x14
  | .envRda => 0x15
  | .envRdr => 0x16
  | .oscStep => 0x20
  | .oscSetsr => 0x21
  | .oscSetf => 0x22
  | .oscStat => 0x23
  | .oscRdd => 0x24
  | .rbPush => 0x30
  | .rbPop => 0x31
  | .rbAt => 0x32
  | .rbClear => 0x33
  | .rbSize => 0x34
  | .midiParse => 0x40
  | .midiAvail => 0x41
  | .midiPop => 0x42
  | .midiStat => 0x43

/-- The format column of spec/30_encoding.md R93. -/
def Mnemonic.format : Mnemonic → Format
  | .envSeta => .t
  | .envSetr => .t
  | .oscSetsr => .s
  | .oscSetf => .w
  | .rbPush => .w
  | .rbAt => .i
  | .midiParse => .b
  | .sysNop => .z
  | .sysReset => .z
  | .envStep => .z
  | .envGate => .z
  | .envStat => .z
  | .envRda => .z
  | .envRdr => .z
  | .oscStep => .z
  | .oscStat => .z
  | .oscRdd => .z
  | .rbPop => .z
  | .rbClear => .z
  | .rbSize => .z
  | .midiAvail => .z
  | .midiPop => .z
  | .midiStat => .z

/-- The name as spec/30_encoding.md R93 spells it. -/
def Mnemonic.text : Mnemonic → String
  | .sysNop => "SYS.NOP"
  | .sysReset => "SYS.RESET"
  | .envStep => "ENV.STEP"
  | .envGate => "ENV.GATE"
  | .envSeta => "ENV.SETA"
  | .envSetr => "ENV.SETR"
  | .envStat => "ENV.STAT"
  | .envRda => "ENV.RDA"
  | .envRdr => "ENV.RDR"
  | .oscStep => "OSC.STEP"
  | .oscSetsr => "OSC.SETSR"
  | .oscSetf => "OSC.SETF"
  | .oscStat => "OSC.STAT"
  | .oscRdd => "OSC.RDD"
  | .rbPush => "RB.PUSH"
  | .rbPop => "RB.POP"
  | .rbAt => "RB.AT"
  | .rbClear => "RB.CLEAR"
  | .rbSize => "RB.SIZE"
  | .midiParse => "MIDI.PARSE"
  | .midiAvail => "MIDI.AVAIL"
  | .midiPop => "MIDI.POP"
  | .midiStat => "MIDI.STAT"

/-- All 23 mnemonics, in the order of spec/30_encoding.md R93. -/
def mnemonics : List Mnemonic :=
  [.sysNop, .sysReset,
   .envStep, .envGate, .envSeta, .envSetr, .envStat, .envRda, .envRdr,
   .oscStep, .oscSetsr, .oscSetf, .oscStat, .oscRdd,
   .rbPush, .rbPop, .rbAt, .rbClear, .rbSize,
   .midiParse, .midiAvail, .midiPop, .midiStat]

/-- The must-be-zero bits of the operand field, spec/30_encoding.md R91, as a mask of bits 47:0. -/
def Format.mustBeZero : Format → BitVec 48
  | .z => 0xFFFFFFFFFFFF
  | .t => 0x000000000000
  | .s => 0xFFFFFF000000
  | .w => 0xFFFF00000000
  | .i => 0xFFFFFFFF0000
  | .b => 0xFFFFFFFFFF00

/-- The mask column of spec/30_encoding.md R91. -/
def Format.mask : Format → CmdWord
  | .z => 0xFFFFFFFFFFFFFFFF
  | .t => 0xFFFF000000000000
  | .s => 0xFFFFFFFFFF000000
  | .w => 0xFFFFFFFF00000000
  | .i => 0xFFFFFFFFFFFF0000
  | .b => 0xFFFFFFFFFFFFFF00

/-- The widths of a format's operands, most significant first (spec/30_encoding.md R91, R98). -/
def Format.widths : Format → List Nat
  | .z => []
  | .t => [24, 24]
  | .s => [24]
  | .w => [32]
  | .i => [16]
  | .b => [8]

/-- Bits 63:56 of a command word, spec/30_encoding.md R90. -/
def fieldOpcode (cmd : CmdWord) : BitVec 8 := cmd.extractLsb' 56 8

/-- Bits 55:48 of a command word, spec/30_encoding.md R90. -/
def fieldRsv (cmd : CmdWord) : BitVec 8 := cmd.extractLsb' 48 8

/-- Bits 47:0 of a command word, spec/30_encoding.md R90. -/
def fieldOpnd (cmd : CmdWord) : BitVec 48 := cmd.extractLsb' 0 48

/-- `t = cmd[47:24]`, spec/30_encoding.md R92. -/
def operandT (cmd : CmdWord) : BitVec 24 := cmd.extractLsb' 24 24

/-- `s = cmd[23:0]`, spec/30_encoding.md R92. -/
def operandS (cmd : CmdWord) : BitVec 24 := cmd.extractLsb' 0 24

/-- `w = cmd[31:0]`, spec/30_encoding.md R92. -/
def operandW (cmd : CmdWord) : BitVec 32 := cmd.extractLsb' 0 32

/-- `i = cmd[15:0]`, spec/30_encoding.md R92. -/
def operandI (cmd : CmdWord) : BitVec 16 := cmd.extractLsb' 0 16

/-- `b = cmd[7:0]`, spec/30_encoding.md R92. -/
def operandB (cmd : CmdWord) : BitVec 8 := cmd.extractLsb' 0 8

/-- The command of a mnemonic with its operands taken from the word, the last line of spec/30_encoding.md R94. -/
def Mnemonic.instr (m : Mnemonic) (cmd : CmdWord) : Instr :=
  match m with
  | .sysNop => .sysNop
  | .sysReset => .sysReset
  | .envStep => .envStep
  | .envGate => .envGate
  | .envSeta => .envSeta (operandT cmd) (operandS cmd)
  | .envSetr => .envSetr (operandT cmd) (operandS cmd)
  | .envStat => .envStat
  | .envRda => .envRda
  | .envRdr => .envRdr
  | .oscStep => .oscStep
  | .oscSetsr => .oscSetsr (operandS cmd)
  | .oscSetf => .oscSetf (operandW cmd)
  | .oscStat => .oscStat
  | .oscRdd => .oscRdd
  | .rbPush => .rbPush (operandW cmd)
  | .rbPop => .rbPop
  | .rbAt => .rbAt (operandI cmd)
  | .rbClear => .rbClear
  | .rbSize => .rbSize
  | .midiParse => .midiParse (operandB cmd)
  | .midiAvail => .midiAvail
  | .midiPop => .midiPop
  | .midiStat => .midiStat

/-- The mnemonic with a given opcode, if R93 lists one. -/
def mnemonicOf (op : BitVec 8) : Option Mnemonic := mnemonics.find? (fun m => m.opcode == op)

/-- The decoder, spec/30_encoding.md R94. -/
def decode (cmd : CmdWord) : Except Illegal Instr :=
  match mnemonicOf (fieldOpcode cmd) with
  | none => .error .unlistedOpcode
  | some m =>
    if fieldRsv cmd ≠ 0 then .error .reservedField
    else if fieldOpnd cmd &&& m.format.mustBeZero ≠ 0 then .error .operandPadding
    else .ok (m.instr cmd)

/-- The operand field of a command, spec/30_encoding.md R91: t in bits 47:24 and s in bits 23:0 of format T, the one operand
in the low bits of the others, every other bit zero. -/
def Instr.opnd : Instr → BitVec 48
  | .envSeta t sr => (t.setWidth 48 <<< 24) ||| sr.setWidth 48
  | .envSetr t sr => (t.setWidth 48 <<< 24) ||| sr.setWidth 48
  | .oscSetsr sr => sr.setWidth 48
  | .oscSetf w => w.setWidth 48
  | .rbPush w => w.setWidth 48
  | .rbAt idx => idx.setWidth 48
  | .midiParse b => b.setWidth 48
  | .sysNop => 0
  | .sysReset => 0
  | .envStep => 0
  | .envGate => 0
  | .envStat => 0
  | .envRda => 0
  | .envRdr => 0
  | .oscStep => 0
  | .oscStat => 0
  | .oscRdd => 0
  | .rbPop => 0
  | .rbClear => 0
  | .rbSize => 0
  | .midiAvail => 0
  | .midiPop => 0
  | .midiStat => 0

/-- The word of a command, from the layout of spec/30_encoding.md R90: the opcode in bits 63:56, rsv = 0, opnd in bits
47:0. -/
def encode (i : Instr) : CmdWord := (i.mnemonic.opcode.setWidth 64 <<< 56) ||| i.opnd.setWidth 64

/-- One row of the opcode map, spec/30_encoding.md R93 (the `match` column is `pattern`). -/
structure OpcodeRow where
  mnemonic : Mnemonic
  pattern : CmdWord
  mask : CmdWord
deriving DecidableEq, Repr

/-- The opcode map of spec/30_encoding.md R93 with the masks of R91, copied column by column; `decode` does not read it. -/
def opcodeTable : List OpcodeRow :=
  [⟨.sysNop, 0x0000000000000000, 0xFFFFFFFFFFFFFFFF⟩,
   ⟨.sysReset, 0x0100000000000000, 0xFFFFFFFFFFFFFFFF⟩,
   ⟨.envStep, 0x1000000000000000, 0xFFFFFFFFFFFFFFFF⟩,
   ⟨.envGate, 0x1100000000000000, 0xFFFFFFFFFFFFFFFF⟩,
   ⟨.envSeta, 0x1200000000000000, 0xFFFF000000000000⟩,
   ⟨.envSetr, 0x1300000000000000, 0xFFFF000000000000⟩,
   ⟨.envStat, 0x1400000000000000, 0xFFFFFFFFFFFFFFFF⟩,
   ⟨.envRda, 0x1500000000000000, 0xFFFFFFFFFFFFFFFF⟩,
   ⟨.envRdr, 0x1600000000000000, 0xFFFFFFFFFFFFFFFF⟩,
   ⟨.oscStep, 0x2000000000000000, 0xFFFFFFFFFFFFFFFF⟩,
   ⟨.oscSetsr, 0x2100000000000000, 0xFFFFFFFFFF000000⟩,
   ⟨.oscSetf, 0x2200000000000000, 0xFFFFFFFF00000000⟩] ++
  [⟨.oscStat, 0x2300000000000000, 0xFFFFFFFFFFFFFFFF⟩,
   ⟨.oscRdd, 0x2400000000000000, 0xFFFFFFFFFFFFFFFF⟩,
   ⟨.rbPush, 0x3000000000000000, 0xFFFFFFFF00000000⟩,
   ⟨.rbPop, 0x3100000000000000, 0xFFFFFFFFFFFFFFFF⟩,
   ⟨.rbAt, 0x3200000000000000, 0xFFFFFFFFFFFF0000⟩,
   ⟨.rbClear, 0x3300000000000000, 0xFFFFFFFFFFFFFFFF⟩,
   ⟨.rbSize, 0x3400000000000000, 0xFFFFFFFFFFFFFFFF⟩,
   ⟨.midiParse, 0x4000000000000000, 0xFFFFFFFFFFFFFF00⟩,
   ⟨.midiAvail, 0x4100000000000000, 0xFFFFFFFFFFFFFFFF⟩,
   ⟨.midiPop, 0x4200000000000000, 0xFFFFFFFFFFFFFFFF⟩,
   ⟨.midiStat, 0x4300000000000000, 0xFFFFFFFFFFFFFFFF⟩]

/-- The command word made of the low `nbits` bits of `w`, every higher bit 0. Every command is one 64-bit word, whose bit 0
is its least significant bit (spec/30_encoding.md R90, R97). -/
def tableWord (nbits w : Nat) : CmdWord := BitVec.ofNat 64 (w % 2 ^ nbits)

/-- The instruction the decoder reads from an opcode-table word. A word longer than 64 bits is no command (R97). -/
def decodeTableWord (nbits w : Nat) : Option Instr :=
  if 64 < nbits then none
  else
    match decode (tableWord nbits w) with
    | .ok i => some i
    | .error _ => none

end Sys2Proof
end

