-- ==== Sys2Proof/Config.lean ====
section
/-!
DEFINITION. The parameters spec/00_scope.md R5 leaves open, the constants it fixes, and the free values of the model.

A `Config` is a legal instantiation of the open rows of R5: an illegal one (a capacity of 0, a table entry outside
[-SONE, +SONE], a table of the wrong length) cannot be built, which is how 93_implementation_defined.md U9's "MUST reject" is
kept. `State.cfg` holds the one a machine was built with.
-/

namespace Sys2Proof

/-- ENV_FRAC, spec/00_scope.md R5. -/
def ENV_FRAC : Nat := 31

/-- ONE, the fixed-point image of 1.0, spec/00_scope.md R5. -/
def ONE : Nat := 2147483648

/-- PH_W, the width of the phase accumulator, spec/00_scope.md R5. -/
def PH_W : Nat := 32

/-- SONE, the image of 1.0 as a waveform sample, spec/00_scope.md R5. -/
def SONE : Int := 32768

/-- OSC_EDGE, spec/00_scope.md R5. -/
inductive OscEdge where
  | wrap | clamp
deriving DecidableEq, Repr, Inhabited

/-- OSC_INTERP, spec/00_scope.md R5. -/
inductive OscInterp where
  | none | linear
deriving DecidableEq, Repr, Inhabited

/-- The overflow policies of spec/00_scope.md R5. -/
inductive Policy where
  | overwrite | discard
deriving DecidableEq, Repr, Inhabited

/-- The seven open parameters of spec/00_scope.md R5, before any check. -/
structure RawConfig where
  /-- LUT_AW. -/
  lutAw : Nat
  /-- LUT_INIT, entry 0 first. -/
  lutInit : List Int
  /-- OSC_EDGE. -/
  oscEdge : OscEdge
  /-- OSC_INTERP. -/
  oscInterp : OscInterp
  /-- RB0_CAP. -/
  rb0Cap : Nat
  /-- RB0_POLICY. -/
  rb0Policy : Policy
  /-- MQ_CAP. -/
  mqCap : Nat
deriving DecidableEq, Repr

/-- The legal ranges of spec/00_scope.md R5. -/
def RawConfig.legal (c : RawConfig) : Bool :=
  decide (1 ≤ c.lutAw) && decide (c.lutAw ≤ 16)
    && decide (c.lutInit.length = 2 ^ c.lutAw)
    && c.lutInit.all (fun v => decide (-SONE ≤ v) && decide (v ≤ SONE))
    && decide (1 ≤ c.rb0Cap) && decide (c.rb0Cap ≤ 65535)
    && decide (1 ≤ c.mqCap) && decide (c.mqCap ≤ 65535)

/-- A legal instantiation of the open parameters (spec/00_scope.md R5, 93_implementation_defined.md U9). -/
structure Config extends RawConfig where
  legal : toRawConfig.legal = true
deriving DecidableEq, Repr

/-- LUT_N = 2^LUT_AW, spec/00_scope.md R5. -/
def Config.lutN (c : Config) : Nat := 2 ^ c.lutAw

/-- FRAC_W = PH_W - LUT_AW, spec/00_scope.md R5. -/
def Config.fracW (c : Config) : Nat := PH_W - c.lutAw

/-! The parameters of the implementation that `State.reset` stands for. None has a value anybody can compute: each is an
uninterpreted constant that ranges over exactly the legal values of R5. DESIGN CHOICE, safe: notes/assumptions/1.md. -/

/-- LUT_AW - 1 of the implementation. -/
opaque Config.lutAwCode : Fin 16

/-- LUT_INIT of the implementation, each entry counted from -SONE. -/
opaque Config.lutCode : Nat → Fin 65537

/-- OSC_EDGE of the implementation. -/
opaque Config.edgeCode : OscEdge

/-- OSC_INTERP of the implementation. -/
opaque Config.interpCode : OscInterp

/-- RB0_CAP - 1 of the implementation. -/
opaque Config.rb0CapCode : Fin 65535

/-- RB0_POLICY of the implementation. -/
opaque Config.rb0PolicyCode : Policy

/-- MQ_CAP - 1 of the implementation. -/
opaque Config.mqCapCode : Fin 65535

/-- The raw parameters of the implementation that `State.reset` stands for. -/
def Config.chipRaw : RawConfig where
  lutAw := Config.lutAwCode.val + 1
  lutInit := (List.range (2 ^ (Config.lutAwCode.val + 1))).map (fun i => (Config.lutCode i).val - SONE)
  oscEdge := Config.edgeCode
  oscInterp := Config.interpCode
  rb0Cap := Config.rb0CapCode.val + 1
  rb0Policy := Config.rb0PolicyCode
  mqCap := Config.mqCapCode.val + 1

/-- The uninterpreted parameters are legal, whatever they are. -/
theorem Config.chipRaw_legal : Config.chipRaw.legal = true := by
  have hAw := Config.lutAwCode.isLt
  have hRb := Config.rb0CapCode.isLt
  have hMq := Config.mqCapCode.isLt
  simp only [RawConfig.legal, Config.chipRaw, SONE, Bool.and_eq_true, List.all_eq_true, List.length_map, List.length_range]
  refine ⟨⟨⟨⟨⟨⟨⟨decide_eq_true (by omega), decide_eq_true (by omega)⟩, by simp⟩, ?_⟩, decide_eq_true (by omega)⟩,
    decide_eq_true (by omega)⟩, decide_eq_true (by omega)⟩, decide_eq_true (by omega)⟩
  intro v hv
  obtain ⟨n, -, rfl⟩ := List.mem_map.mp hv
  have := (Config.lutCode n).isLt
  exact ⟨decide_eq_true (by omega), decide_eq_true (by omega)⟩

/-- The implementation that `State.reset` stands for. -/
def Config.chip : Config := { Config.chipRaw with legal := Config.chipRaw_legal }

/-! The contents of storage slots that nothing has written since power-on: unspecified (spec/10_state.md R33, R42,
spec/20_memory.md R62, 93_implementation_defined.md U5), so free. DESIGN CHOICE, safe: notes/assumptions/6.md. -/

/-- What slot `i` of RB0 holds after power-on. -/
opaque Config.rb0PowerOn : Nat → BitVec 32

/-- What slot `i` of MQ holds after power-on. -/
opaque Config.mqPowerOn : Nat → BitVec 16

end Sys2Proof
end

