-- ==== Sys2Proof/Machine/State.lean ====
section
/-!
DEFINITION. The state of MDSB: the 17 registers and two writable memories of spec/10_state.md R20, and the model's own
fields for what the spec keeps outside the registers (the construction-time parameters, the command port, the response port).
-/

namespace Sys2Proof.Machine

/-- Why a step stops although the command is one of R93. -/
inductive Fault where
  /-- Raised by RB.AT alone, when its index is at or beyond rb0_size: the one undefined point of the block
  (spec/43_ringbuffer.md R195, 93_implementation_defined.md U1 "Treatment: fault"). Safe: nothing is claimed of what a
  real block does there. notes/assumptions/9.md. -/
  | rbAtBeyondSize
deriving DecidableEq, Repr

/-- Why a step has no meaning. -/
inductive Refusal where
  /-- Raised by `exec` for a command whose meaning is not written. Safe. No arm uses it. -/
  | notModelled (mnemonic : String)
  /-- Raised by every step from a state with a register outside its legal values (spec/10_state.md R21 "a model MUST NOT
  give it a meaning (treat it as a refusal)", 93_implementation_defined.md U6). Safe: no such state is reached from reset.
  notes/assumptions/5.md. -/
  | illegalState
deriving DecidableEq, Repr

/-- env_phase, spec/10_state.md R23. -/
inductive EnvPhase where
  | idle | attack | release
deriving DecidableEq, Repr

/-- mp_state, spec/10_state.md R39. -/
inductive ParserState where
  | awaitStatus | awaitData1 | awaitData2
deriving DecidableEq, Repr

/-- An element-addressed storage (spec/20_memory.md R60): the slots written since power-on with what they hold, slot numbers
strictly rising. A slot that is not listed holds the free value of Config.lean. -/
abbrev Memory (w : Nat) := List (Nat × BitVec w)

/-- A ring buffer's three registers and its storage (spec/10_state.md R33 to R36; R42 for MQ). -/
structure RingBuf (w : Nat) where
  head : BitVec 16
  tail : BitVec 16
  size : BitVec 16
  slots : Memory w
deriving DecidableEq, Repr

/-- What the outside can present to the block, one at a time: a command word (spec/00_scope.md R16) or the reset input
(spec/70_reset_and_hazards.md R281). -/
inductive Input where
  | command (w : CmdWord)
  | reset
deriving DecidableEq, Repr

/-- The state of the block. The first thirteen fields are spec/10_state.md R20; `rb0` holds rb0_head, rb0_tail, rb0_size
and the RB0 storage, `mq` the same of MQ. An UNSET register (R22) is `none`. -/
structure State where
  envPhase : EnvPhase
  envOut : BitVec 32
  envArate : Option (BitVec 32)
  envRrate : Option (BitVec 32)
  oscPhase : BitVec 32
  oscSr : Option (BitVec 24)
  oscFreq : Option (BitVec 32)
  oscDelta : Option (BitVec 32)
  rb0 : RingBuf 32
  mpState : ParserState
  mpStatus : BitVec 8
  mpData1 : BitVec 7
  mq : RingBuf 16
  /-- The parameters the block was built with (spec/00_scope.md R5): no state of the spec (10_state.md R48), and no step
  writes it. notes/assumptions/1.md. -/
  cfg : Config
  /-- What has been presented and not yet accepted, oldest first. notes/assumptions/2.md. -/
  port : List Input
  /-- The response words emitted, oldest first. notes/assumptions/3.md. -/
  out : List RspWord
deriving DecidableEq, Repr

/-- A buffer right after power-on: empty, its storage unspecified (spec/10_state.md R49). -/
def RingBuf.powerOn (w : Nat) : RingBuf w := { head := 0, tail := 0, size := 0, slots := [] }

/-- The block built with parameters `c`, right after power-on reset (spec/10_state.md R49): nothing presented, nothing
emitted. -/
def State.resetWith (c : Config) : State where
  envPhase := .idle
  envOut := 0
  envArate := none
  envRrate := none
  oscPhase := 0
  oscSr := none
  oscFreq := none
  oscDelta := none
  rb0 := RingBuf.powerOn 32
  mpState := .awaitStatus
  mpStatus := 0
  mpData1 := 0
  mq := RingBuf.powerOn 16
  cfg := c
  port := []
  out := []

/-- The block right after reset, for an implementation nothing is known of but that its parameters are legal. -/
def State.reset : State := State.resetWith Config.chip

end Sys2Proof.Machine
end

