-- ==== Sys2Proof/Machine/Flags.lean ====
section
/-!
DEFINITION. What MDSB has in place of flags. It has no condition code and no sticky error bit (spec/10_state.md R45): its
status is the response word of each command (spec/00_scope.md R15), and its only flags are the set flags of the five parameter
registers (spec/10_state.md R22), which are the `some` and `none` of an `Option`.
-/

namespace Sys2Proof.Machine

/-- The error causes of spec/60_exceptions.md R251 to R253. -/
inductive ErrorCode where
  | illegal | badOperand | unset
deriving DecidableEq, Repr

/-- ECODE, spec/00_scope.md R15. -/
def errorCodeBits : ErrorCode → BitVec 3
  | .illegal => 1
  | .badOperand => 2
  | .unset => 3

/-- The three response constructors of spec/00_scope.md R15. -/
inductive Response where
  | ok
  | okd (data : BitVec 48)
  | err (e : ErrorCode)
deriving DecidableEq, Repr

/-- A response word from its four fields: bit 63 ERR, bits 62:60 ECODE, bit 59 VALID, bits 58:48 zero, bits 47:0 DATA
(spec/00_scope.md R15). -/
def responseFields (err : BitVec 1) (ecode : BitVec 3) (valid : BitVec 1) (data : BitVec 48) : RspWord :=
  (err.setWidth 64 <<< 63) ||| (ecode.setWidth 64 <<< 60) ||| (valid.setWidth 64 <<< 59) ||| data.setWidth 64

/-- The word of a response (spec/00_scope.md R15). -/
def responseWord : Response → RspWord
  | .ok => responseFields 0 0 0 0
  | .okd d => responseFields 0 0 1 d
  | .err e => responseFields 1 (errorCodeBits e) 0 0

/-- The two bits of env_phase, spec/10_state.md R23. -/
def envPhaseCode : EnvPhase → Nat
  | .idle => 0
  | .attack => 1
  | .release => 2

/-- The two bits of mp_state, spec/10_state.md R39. -/
def parserStateCode : ParserState → Nat
  | .awaitStatus => 0
  | .awaitData1 => 1
  | .awaitData2 => 2

/-- DATA of ENV.STEP and ENV.STAT: `env_phase * 2^32 + env_out` (spec/41_envelope.md R131, R136). -/
def envData (s : State) : BitVec 48 := BitVec.ofNat 48 (envPhaseCode s.envPhase * 2 ^ 32 + s.envOut.toNat)

/-- DATA of MIDI.STAT (spec/44_midi.md R227). -/
def midiData (s : State) : BitVec 48 :=
  BitVec.ofNat 48
    (s.mq.size.toNat * 2 ^ 24 + s.mpData1.toNat * 2 ^ 16 + s.mpStatus.toNat * 2 ^ 8 + parserStateCode s.mpState)

/-- DATA of OSC.STEP: `y mod 2^32` (spec/42_oscillator.md R161). -/
def sampleData (y : Int) : BitVec 48 := BitVec.ofNat 48 (y % 2 ^ 32).toNat

end Sys2Proof.Machine
end

