-- ==== Sys2Proof/Machine/Numerics.lean ====
section
/-!
DEFINITION. The six arithmetic primitives of spec/00_scope.md R9 to R14. Every number the block computes goes through one of
them; no unit rule does arithmetic of its own, so another number system can be put in by changing this file alone.

They are total functions on unbounded integers (R6); R9 to R13 give the ranges of their arguments and results.
-/

namespace Sys2Proof.Machine

/-- RATE(t, s), spec/00_scope.md R9: t milliseconds at s hertz, rounded up, saturated at ONE, ONE when t * s = 0. -/
def rate (t s : Nat) : Nat :=
  if t * s = 0 then ONE else min (ceilDiv (ONE * 1000) (t * s)) ONE

/-- ENV_UP(o, r), spec/00_scope.md R10: the output after one attack increment, and whether it reached ONE. -/
def envUp (o r : Nat) : Nat × Bool :=
  if ONE ≤ o + r then (ONE, true) else (o + r, false)

/-- ENV_DOWN(o, r), spec/00_scope.md R11: the output after one release decrement, and whether it reached 0. -/
def envDown (o r : Nat) : Nat × Bool :=
  if o ≤ r then (0, true) else (o - r, false)

/-- PHASE_DELTA(f, s), spec/00_scope.md R12: the phase increment of frequency f (UQ16.16 hertz) at s hertz. -/
def phaseDelta (f s : Nat) : Nat := (f * 2 ^ 16 / s) % 2 ^ PH_W

/-- PHASE_ADV(p, d), spec/00_scope.md R13. -/
def phaseAdv (p d : Nat) : Nat := (p + d) % 2 ^ PH_W

/-- The table index of a phase: its top LUT_AW bits (spec/00_scope.md R14). -/
def lutIndex (c : Config) (p : Nat) : Nat := p / 2 ^ c.fracW

/-- The fraction of a phase: the remaining FRAC_W bits (spec/00_scope.md R14). -/
def lutFrac (c : Config) (p : Nat) : Nat := p % 2 ^ c.fracW

/-- The neighbour entry of an index under OSC_EDGE (spec/00_scope.md R14). -/
def lutNext (c : Config) (idx : Nat) : Nat :=
  match c.oscEdge with
  | .wrap => (idx + 1) % c.lutN
  | .clamp => min (idx + 1) (c.lutN - 1)

/-- MemRead(LUT, i), spec/20_memory.md R61. R14 forms no index outside the table, so the 0 is never read:
notes/assumptions/12.md. -/
def lutEntry (c : Config) (i : Nat) : Int := c.lutInit.getD i 0

/-- LUT_READ(p), spec/00_scope.md R14. The division of integers by a positive number rounds toward minus infinity. -/
def lutRead (c : Config) (p : Nat) : Int :=
  let a := lutEntry c (lutIndex c p)
  match c.oscInterp with
  | .none => a
  | .linear =>
    let b := lutEntry c (lutNext c (lutIndex c p))
    a + ((b - a) * (lutFrac c p : Int)) / (2 : Int) ^ c.fracW

end Sys2Proof.Machine
end

