-- ==== Sys2Proof/Machine/Operands.lean ====
section
/-!
DEFINITION. What an operand means to a command: the registers a setter's operands become (spec/41_envelope.md R133,
spec/42_oscillator.md R162, R164), and the classes and parts of a MIDI byte (spec/30_encoding.md R101, spec/44_midi.md R222).
-/

namespace Sys2Proof.Machine

/-- The rate register a pair of operands gives: RATE(t, s) in 32 bits, exact because RATE <= ONE (spec/00_scope.md R9). -/
def rateRegister (t sr : BitVec 24) : BitVec 32 := BitVec.ofNat 32 (rate t.toNat sr.toNat)

/-- The increment register a frequency and a sample rate give: PHASE_DELTA(f, s) (spec/00_scope.md R12). -/
def deltaRegister (f : BitVec 32) (sr : BitVec 24) : BitVec 32 := BitVec.ofNat 32 (phaseDelta f.toNat sr.toNat)

/-- `b[7]`: a status byte has it set, a data byte clear (spec/30_encoding.md R101). -/
def isStatusByte (b : BitVec 8) : Bool := b.getLsbD 7

/-- `b[6:0]`, the value of a data byte (spec/30_encoding.md R101). -/
def dataValue (b : BitVec 8) : BitVec 7 := b.extractLsb' 0 7

/-- `b[7:4]`, which alone classes a status byte (spec/44_midi.md R222). -/
def highNibble (b : BitVec 8) : BitVec 4 := b.extractLsb' 4 4

/-- The kinds of a note, spec/10_state.md R44. -/
inductive NoteKind where
  | noteOn | noteOff | other
deriving DecidableEq, Repr

/-- NOTE_ON = 0, NOTE_OFF = 1, OTHER = 2 (spec/10_state.md R44). -/
def noteKindCode : NoteKind → Nat
  | .noteOn => 0
  | .noteOff => 1
  | .other => 2

/-- The class of a status byte and the kind of its note; `none` is unrecognised (spec/44_midi.md R222). -/
def statusClass (b : BitVec 8) : Option NoteKind :=
  if highNibble b = 0x8 then some .noteOff
  else if highNibble b = 0x9 then some .noteOn
  else if highNibble b = 0xA ∨ highNibble b = 0xB ∨ highNibble b = 0xE then some .other
  else none

/-- A recognised status byte (spec/44_midi.md R222). -/
def recognisedStatus (b : BitVec 8) : Bool := (statusClass b).isSome

/-- `kind(mp_status)` of spec/44_midi.md R223: 0x9 gives NOTE_ON, 0x8 NOTE_OFF, anything else OTHER. -/
def kindOf (status : BitVec 8) : NoteKind :=
  match statusClass status with
  | some k => k
  | none => .other

/-- `pack(kind, pitch, velocity)`, spec/10_state.md R44. -/
def packNote (k : NoteKind) (pitch velocity : BitVec 7) : BitVec 16 :=
  BitVec.ofNat 16 (noteKindCode k * 2 ^ 14 + pitch.toNat * 2 ^ 7 + velocity.toNat)

end Sys2Proof.Machine
end

