-- ==== Sys2Proof/Machine/Ops.lean ====
section
/-!
DEFINITION. The operations the meanings share: the storages, the ring buffers, the legal-state check, the response and the
error response, the reset, and the two ports.
-/

namespace Sys2Proof.Machine

/-- What a step answers. -/
abbrev StepResult := Host.Outcome State Fault Refusal

/-! ## Storage (spec/20_memory.md R62, R63) -/

/-- The canonical form of a storage: slot numbers strictly rising. -/
abbrev Memory.wf {w : Nat} (m : Memory w) : Prop := m.Pairwise (fun a b => a.1 < b.1)

/-- Every listed slot exists: its number is below the capacity. -/
abbrev Memory.within {w : Nat} (cap : Nat) (m : Memory w) : Prop := ∀ e ∈ m, e.1 < cap

/-- What has been written to a slot since power-on, if anything. -/
def memLookup {w : Nat} : Memory w → Nat → Option (BitVec w)
  | [], _ => none
  | (a, v) :: rest, i => if a = i then some v else memLookup rest i

/-- MemRead: the value last written to a slot, and the free value of a slot never written (spec/20_memory.md R62). -/
def memRead {w : Nat} (powerOn : Nat → BitVec w) (m : Memory w) (i : Nat) : BitVec w :=
  match memLookup m i with
  | some v => v
  | none => powerOn i

/-- MemWrite: slot `i` holds `v` (spec/20_memory.md R62). -/
def memWrite {w : Nat} : Memory w → Nat → BitVec w → Memory w
  | [], i, v => [(i, v)]
  | (a, u) :: rest, i, v =>
    if i < a then (i, v) :: (a, u) :: rest
    else if a = i then (i, v) :: rest
    else (a, u) :: memWrite rest i v

/-! ## Ring buffers (spec/43_ringbuffer.md R191, R192) -/

/-- A head or tail moved on by one, modulo the capacity. -/
def advance (cap : Nat) (p : BitVec 16) : BitVec 16 := BitVec.ofNat 16 ((p.toNat + 1) % cap)

/-- The slot of a logical index: (head + i) mod C (spec/10_state.md R37). -/
def slotOf {w : Nat} (cap : Nat) (r : RingBuf w) (i : Nat) : Nat := (r.head.toNat + i) % cap

/-- The last three lines of rb_push: write at the tail, advance it, count the element. -/
def ringAppend {w : Nat} (cap : Nat) (x : BitVec w) (r : RingBuf w) : RingBuf w :=
  { head := r.head
    tail := advance cap r.tail
    size := BitVec.ofNat 16 (r.size.toNat + 1)
    slots := memWrite r.slots r.tail.toNat x }

/-- The eviction of rb_push under OVERWRITE: the head moves on, one element fewer. -/
def ringEvict {w : Nat} (cap : Nat) (r : RingBuf w) : RingBuf w :=
  { r with head := advance cap r.head, size := BitVec.ofNat 16 (r.size.toNat - 1) }

/-- rb_push(B, x), spec/43_ringbuffer.md R191. -/
def ringPush {w : Nat} (cap : Nat) (policy : Policy) (x : BitVec w) (r : RingBuf w) : RingBuf w :=
  if r.size.toNat = cap then
    match policy with
    | .discard => r
    | .overwrite => ringAppend cap x (ringEvict cap r)
  else ringAppend cap x r

/-- rb_pop(B), spec/43_ringbuffer.md R192: the oldest element and the buffer without it, or `none` when empty. -/
def ringPop {w : Nat} (cap : Nat) (powerOn : Nat → BitVec w) (r : RingBuf w) : Option (BitVec w × RingBuf w) :=
  if r.size.toNat = 0 then none
  else some (memRead powerOn r.slots r.head.toNat, ringEvict cap r)

/-- The element at a logical index, `MemRead(B, (B.head + i) mod C)` (spec/43_ringbuffer.md R195). -/
def ringAt {w : Nat} (cap : Nat) (powerOn : Nat → BitVec w) (r : RingBuf w) (i : Nat) : BitVec w :=
  memRead powerOn r.slots (slotOf cap r i)

/-- The logical sequence of a buffer, oldest first (spec/10_state.md R37). -/
def ringSeq {w : Nat} (cap : Nat) (powerOn : Nat → BitVec w) (r : RingBuf w) : List (BitVec w) :=
  (List.range r.size.toNat).map (ringAt cap powerOn r)

/-- A buffer emptied, its slots as they were (spec/43_ringbuffer.md R196, spec/70_reset_and_hazards.md R280). -/
def ringClear {w : Nat} (r : RingBuf w) : RingBuf w := { r with head := 0, tail := 0, size := 0 }

/-- The logical sequence of RB0. -/
def rb0Seq (s : State) : List (BitVec 32) := ringSeq s.cfg.rb0Cap Config.rb0PowerOn s.rb0

/-- The logical sequence of MQ. -/
def mqSeq (s : State) : List (BitVec 16) := ringSeq s.cfg.mqCap Config.mqPowerOn s.mq

/-! ## Legal states (spec/10_state.md R20, R21, R40) -/

/-- A rate register is UNSET or in 1 .. ONE (spec/10_state.md R25, R26). -/
def rateLegal : Option (BitVec 32) → Bool
  | none => true
  | some r => !decide (r.toNat = 0) && !decide (ONE < r.toNat)

/-- The sample-rate register is UNSET or not 0 (spec/10_state.md R29). -/
def srLegal : Option (BitVec 24) → Bool
  | none => true
  | some v => !decide (v.toNat = 0)

/-- The three registers of a buffer of capacity `cap` are in range (spec/10_state.md R34 to R36). -/
def ringLegal {w : Nat} (cap : Nat) (r : RingBuf w) : Bool :=
  !decide (cap ≤ r.head.toNat) && !decide (cap ≤ r.tail.toNat) && !decide (cap < r.size.toNat)

/-- mp_status is 0x00 exactly in AWAIT_STATUS and a recognised status byte exactly otherwise (spec/10_state.md R40). -/
def statusLegal : ParserState → BitVec 8 → Bool
  | .awaitStatus, b => decide (b = 0)
  | .awaitData1, b => recognisedStatus b
  | .awaitData2, b => recognisedStatus b

/-- Every register is inside its legal values (spec/10_state.md R20, 93_implementation_defined.md U6). -/
def stateLegal (s : State) : Bool :=
  !decide (ONE < s.envOut.toNat) && rateLegal s.envArate && rateLegal s.envRrate && srLegal s.oscSr
    && ringLegal s.cfg.rb0Cap s.rb0 && statusLegal s.mpState s.mpStatus && ringLegal s.cfg.mqCap s.mq

/-- No rule says what the block does from a state that is not legal: it is refused (spec/10_state.md R21). -/
def whenLegal (s : State) (o : StepResult) : StepResult :=
  if stateLegal s = true then o else .refused .illegalState

/-! ## Responses and errors (spec/00_scope.md R8, R15; spec/60_exceptions.md R256) -/

/-- `respond`: emit one response word. -/
def respond (r : Response) (s : State) : State := { s with out := s.out ++ [responseWord r] }

/-- `raise E`: write no state and answer ERR(E). MDSB has no other way to take an error, no trap entry and no return
(spec/60_exceptions.md R256, R257). -/
def raise (e : ErrorCode) (s : State) : State := respond (.err e) s

/-- Answer a parameter register, or ERR(UNSET) when its set flag is 0 (spec/10_state.md R22). -/
def respondRegister (r : Option (BitVec 32)) (s : State) : State :=
  match r with
  | none => raise .unset s
  | some v => respond (.okd (v.setWidth 48)) s

/-- An illegal command: write nothing, answer ERR(ILLEGAL) (spec/30_encoding.md R95, spec/60_exceptions.md R251). -/
def illegalCommand (s : State) : StepResult := whenLegal s (.next (raise .illegal s))

/-! ## Reset (spec/70_reset_and_hazards.md R280) -/

/-- Every register takes its reset value; the slots of RB0 and MQ, the parameters and the two ports are not written. -/
def clearRegisters (s : State) : State :=
  { s with
    envPhase := .idle
    envOut := 0
    envArate := none
    envRrate := none
    oscPhase := 0
    oscSr := none
    oscFreq := none
    oscDelta := none
    rb0 := ringClear s.rb0
    mpState := .awaitStatus
    mpStatus := 0
    mpData1 := 0
    mq := ringClear s.mq }

/-- The reset input, between two commands: the reset, and no response of its own (spec/70_reset_and_hazards.md R280, R281). -/
def resetInput (s : State) : StepResult := whenLegal s (.next (clearRegisters s))

/-! ## Ports (spec/00_scope.md R16) -/

/-- The state with its command port holding `p`. -/
def withPort (p : List Input) (s : State) : State := { s with port := p }

/-- Nothing has been presented: the block does nothing (spec/00_scope.md R16). -/
def idle (s : State) : StepResult := whenLegal s (.next s)

/-- A command word presented ahead of everything else on the port. -/
def presentWord (w : CmdWord) (s : State) : State := withPort (.command w :: s.port) s

end Sys2Proof.Machine
end

