-- ==== Sys2Proof/Machine/Envelope.lean ====
section
/-!
DEFINITION. The ENV commands, spec/41_envelope.md.
-/

namespace Sys2Proof.Machine

/-- `respond OKD( env_phase * 2^32 + env_out )` with the values of the state it is given (spec/41_envelope.md R131). -/
def respondEnv (s : State) : State := respond (.okd (envData s)) s

/-- The ATTACK arm of ENV.STEP, spec/41_envelope.md R131. -/
def attackStep (s : State) : State :=
  match s.envArate with
  | none => raise .unset s
  | some r =>
    respondEnv
      { s with
        envOut := BitVec.ofNat 32 (envUp s.envOut.toNat r.toNat).1
        envPhase := if (envUp s.envOut.toNat r.toNat).2 = true then .release else .attack }

/-- The RELEASE arm of ENV.STEP, spec/41_envelope.md R131. -/
def releaseStep (s : State) : State :=
  match s.envRrate with
  | none => raise .unset s
  | some r =>
    respondEnv
      { s with
        envOut := BitVec.ofNat 32 (envDown s.envOut.toNat r.toNat).1
        envPhase := if (envDown s.envOut.toNat r.toNat).2 = true then .idle else .release }

/-- The one phase evaluation of ENV.STEP, spec/41_envelope.md R131. -/
def envelopeStep (s : State) : State :=
  match s.envPhase with
  | .idle => respondEnv s
  | .attack => attackStep s
  | .release => releaseStep s

/-- ENV.STEP, spec/41_envelope.md R131. -/
def execEnvStep (s : State) : StepResult := whenLegal s (.next (envelopeStep s))

/-- ENV.GATE, spec/41_envelope.md R132. -/
def execEnvGate (s : State) : StepResult := whenLegal s (.next (respond .ok { s with envPhase := .attack }))

/-- ENV.SETA t, s, spec/41_envelope.md R133 and R134. -/
def execEnvSeta (t sr : BitVec 24) (s : State) : StepResult :=
  whenLegal s
    (.next
      (if sr = 0 then raise .badOperand s
       else respond .ok { s with envArate := some (rateRegister t sr) }))

/-- ENV.SETR t, s, spec/41_envelope.md R135 and R134. -/
def execEnvSetr (t sr : BitVec 24) (s : State) : StepResult :=
  whenLegal s
    (.next
      (if sr = 0 then raise .badOperand s
       else respond .ok { s with envRrate := some (rateRegister t sr) }))

/-- ENV.STAT, spec/41_envelope.md R136. -/
def execEnvStat (s : State) : StepResult := whenLegal s (.next (respondEnv s))

/-- ENV.RDA, spec/41_envelope.md R137. -/
def execEnvRda (s : State) : StepResult := whenLegal s (.next (respondRegister s.envArate s))

/-- ENV.RDR, spec/41_envelope.md R138. -/
def execEnvRdr (s : State) : StepResult := whenLegal s (.next (respondRegister s.envRrate s))

end Sys2Proof.Machine
end

