-- ==== Sys2Proof/Machine/Midi.lean ====
section
/-!
DEFINITION. The MIDI commands, spec/44_midi.md.
-/

namespace Sys2Proof.Machine

/-- A status byte, in any state (spec/44_midi.md R220, first two rows). -/
def parseStatusByte (b : BitVec 8) (s : State) : State :=
  if recognisedStatus b = true then { s with mpStatus := b, mpData1 := 0, mpState := .awaitData1 }
  else { s with mpStatus := 0, mpData1 := 0, mpState := .awaitStatus }

/-- A data byte of value `d` (spec/44_midi.md R220, last three rows). -/
def parseDataByte (d : BitVec 7) (s : State) : State :=
  match s.mpState with
  | .awaitStatus => s
  | .awaitData1 => { s with mpData1 := d, mpState := .awaitData2 }
  | .awaitData2 =>
    { s with
      mq := ringPush s.cfg.mqCap .discard (packNote (kindOf s.mpStatus) s.mpData1 d) s.mq
      mpData1 := 0
      mpState := .awaitData1 }

/-- The parser consumes one byte (spec/44_midi.md R223). -/
def parseByte (b : BitVec 8) (s : State) : State :=
  if isStatusByte b = true then parseStatusByte b s else parseDataByte (dataValue b) s

/-- MIDI.PARSE b, spec/44_midi.md R223. -/
def execMidiParse (b : BitVec 8) (s : State) : StepResult := whenLegal s (.next (respond .ok (parseByte b s)))

/-- MIDI.AVAIL, spec/44_midi.md R225. -/
def execMidiAvail (s : State) : StepResult :=
  whenLegal s (.next (respond (.okd (if 0 < s.mq.size.toNat then 1 else 0)) s))

/-- MIDI.POP, spec/44_midi.md R226. -/
def execMidiPop (s : State) : StepResult :=
  whenLegal s
    (.next
      (match ringPop s.cfg.mqCap Config.mqPowerOn s.mq with
       | none => respond .ok s
       | some (n, r) => respond (.okd (n.setWidth 48)) { s with mq := r }))

/-- MIDI.STAT, spec/44_midi.md R227. -/
def execMidiStat (s : State) : StepResult := whenLegal s (.next (respond (.okd (midiData s)) s))

end Sys2Proof.Machine
end

