-- ==== Sys2Proof/Machine/Oscillator.lean ====
section
/-!
DEFINITION. The OSC commands, spec/42_oscillator.md.
-/

namespace Sys2Proof.Machine

/-- One sample and one phase increment, spec/42_oscillator.md R161: the sample is read before the phase moves. -/
def oscillatorStep (s : State) : State :=
  match s.oscDelta with
  | none => raise .unset s
  | some d =>
    respond (.okd (sampleData (lutRead s.cfg s.oscPhase.toNat)))
      { s with oscPhase := BitVec.ofNat 32 (phaseAdv s.oscPhase.toNat d.toNat) }

/-- OSC.STEP, spec/42_oscillator.md R161. -/
def execOscStep (s : State) : StepResult := whenLegal s (.next (oscillatorStep s))

/-- OSC.SETSR s, spec/42_oscillator.md R162 and R163. -/
def execOscSetsr (sr : BitVec 24) (s : State) : StepResult :=
  whenLegal s
    (.next
      (if sr = 0 then raise .badOperand s
       else
        respond .ok
          { s with
            oscSr := some sr
            oscDelta :=
              match s.oscFreq with
              | some f => some (deltaRegister f sr)
              | none => s.oscDelta }))

/-- OSC.SETF w, spec/42_oscillator.md R164. -/
def execOscSetf (w : BitVec 32) (s : State) : StepResult :=
  whenLegal s
    (.next
      (respond .ok
        { s with
          oscFreq := some w
          oscDelta :=
            match s.oscSr with
            | some sr => some (deltaRegister w sr)
            | none => s.oscDelta }))

/-- OSC.STAT, spec/42_oscillator.md R165. -/
def execOscStat (s : State) : StepResult := whenLegal s (.next (respond (.okd (s.oscPhase.setWidth 48)) s))

/-- OSC.RDD, spec/42_oscillator.md R166. -/
def execOscRdd (s : State) : StepResult := whenLegal s (.next (respondRegister s.oscDelta s))

end Sys2Proof.Machine
end

