-- ==== Sys2Proof/Machine/RingBuffer.lean ====
section
/-!
DEFINITION. The RB commands, spec/43_ringbuffer.md.
-/

namespace Sys2Proof.Machine

/-- RB.PUSH w, spec/43_ringbuffer.md R193. -/
def execRbPush (w : BitVec 32) (s : State) : StepResult :=
  whenLegal s (.next (respond .ok { s with rb0 := ringPush s.cfg.rb0Cap s.cfg.rb0Policy w s.rb0 }))

/-- RB.POP, spec/43_ringbuffer.md R194. -/
def execRbPop (s : State) : StepResult :=
  whenLegal s
    (.next
      (match ringPop s.cfg.rb0Cap Config.rb0PowerOn s.rb0 with
       | none => respond .ok s
       | some (x, r) => respond (.okd (x.setWidth 48)) { s with rb0 := r }))

/-- RB.AT i, spec/43_ringbuffer.md R195: a fault beyond the logical size. -/
def execRbAt (idx : BitVec 16) (s : State) : StepResult :=
  whenLegal s
    (if idx.toNat < s.rb0.size.toNat then
      .next (respond (.okd ((ringAt s.cfg.rb0Cap Config.rb0PowerOn s.rb0 idx.toNat).setWidth 48)) s)
     else .fault .rbAtBeyondSize)

/-- RB.CLEAR, spec/43_ringbuffer.md R196. -/
def execRbClear (s : State) : StepResult := whenLegal s (.next (respond .ok { s with rb0 := ringClear s.rb0 }))

/-- RB.SIZE, spec/43_ringbuffer.md R197. -/
def execRbSize (s : State) : StepResult := whenLegal s (.next (respond (.okd (s.rb0.size.setWidth 48)) s))

end Sys2Proof.Machine
end

