-- ==== Sys2Proof/Machine/Sys.lean ====
section
/-!
DEFINITION. The SYS commands, spec/40_sys.md.
-/

namespace Sys2Proof.Machine

/-- SYS.NOP, spec/40_sys.md R120. -/
def execSysNop (s : State) : StepResult := whenLegal s (.next (respond .ok s))

/-- SYS.RESET, spec/40_sys.md R121. -/
def execSysReset (s : State) : StepResult := whenLegal s (.next (respond .ok (clearRegisters s)))

end Sys2Proof.Machine
end

