-- ==== Sys2Proof/Machine/Dispatch.lean ====
section
/-!
DEFINITION. One arm per command of spec/30_encoding.md R93, each one call of its meaning.
-/

namespace Sys2Proof.Machine

/-- The one rule a command names, spec/00_scope.md R16. -/
def exec (i : Instr) (s : State) : Host.Outcome State Fault Refusal :=
  match i with
  | .sysNop => Sys2Proof.Machine.execSysNop s
  | .sysReset => Sys2Proof.Machine.execSysReset s
  | .envStep => Sys2Proof.Machine.execEnvStep s
  | .envGate => Sys2Proof.Machine.execEnvGate s
  | .envSeta t sr => Sys2Proof.Machine.execEnvSeta t sr s
  | .envSetr t sr => Sys2Proof.Machine.execEnvSetr t sr s
  | .envStat => Sys2Proof.Machine.execEnvStat s
  | .envRda => Sys2Proof.Machine.execEnvRda s
  | .envRdr => Sys2Proof.Machine.execEnvRdr s
  | .oscStep => Sys2Proof.Machine.execOscStep s
  | .oscSetsr sr => Sys2Proof.Machine.execOscSetsr sr s
  | .oscSetf w => Sys2Proof.Machine.execOscSetf w s
  | .oscStat => Sys2Proof.Machine.execOscStat s
  | .oscRdd => Sys2Proof.Machine.execOscRdd s
  | .rbPush w => Sys2Proof.Machine.execRbPush w s
  | .rbPop => Sys2Proof.Machine.execRbPop s
  | .rbAt idx => Sys2Proof.Machine.execRbAt idx s
  | .rbClear => Sys2Proof.Machine.execRbClear s
  | .rbSize => Sys2Proof.Machine.execRbSize s
  | .midiParse b => Sys2Proof.Machine.execMidiParse b s
  | .midiAvail => Sys2Proof.Machine.execMidiAvail s
  | .midiPop => Sys2Proof.Machine.execMidiPop s
  | .midiStat => Sys2Proof.Machine.execMidiStat s

end Sys2Proof.Machine
end

