-- ==== Sys2Proof/Machine/Step.lean ====
section
/-!
DEFINITION. One step of the block (spec/00_scope.md R16): accept what is presented next, decode it, perform its one rule.
-/

namespace Sys2Proof.Machine

/-- One step: accept the oldest event on the port. A command is decoded and executed (spec/00_scope.md R16), an illegal
word answered (spec/30_encoding.md R95), the reset input obeyed (spec/70_reset_and_hazards.md R281); an empty port leaves the
block as it is. -/
def step (s : State) : Host.Outcome State Fault Refusal :=
  match s.port with
  | [] => idle s
  | .reset :: rest => resetInput (withPort rest s)
  | .command cmd :: rest =>
    match decode cmd with
    | .ok i => exec i (withPort rest s)
    | .error _ => illegalCommand (withPort rest s)

/-- The opcode-table word `w` presented ahead of everything else on the command port, so that the next step accepts it:
notes/assumptions/2.md. -/
def State.withFetchWord (s : State) (nbits w : Nat) : State := presentWord (tableWord nbits w) s

end Sys2Proof.Machine
end

