-- ==== Sys2Proof/Safety.lean ====
section
/-!
DEFINITION. The terms claims about MDSB are made in: sequences of commands, a safe run, the invariants of spec/10_state.md, what
a host can see, and the usage rules of spec/70_reset_and_hazards.md that a stream of commands can keep or break.
-/

namespace Sys2Proof.Machine

/-! ## Sequences of commands -/

/-- The rules of a list of commands, one after the other, stopping at the first stop (spec/70_reset_and_hazards.md R294). -/
def execAll : List Instr → State → StepResult
  | [], s => .next s
  | i :: is, s =>
    match exec i s with
    | .next s' => execAll is s'
    | .fault r => .fault r
    | .refused r => .refused r

/-- A run of `k` steps that does not stop. -/
def SafeRun (k : Nat) (s : State) : Prop := ∃ t, Host.Core.run Sys2Proof.core k s = .next t

/-! ## Invariants (spec/10_state.md R27, R32, R37, R43) -/

/-- R27: (a) env_out <= ONE, (b) IDLE implies env_out = 0, (c) RELEASE implies env_out > 0. -/
def EnvInv (s : State) : Prop :=
  s.envOut.toNat ≤ ONE ∧ (s.envPhase = .idle → s.envOut = 0) ∧ (s.envPhase = .release → 0 < s.envOut.toNat)

/-- R32: osc_delta is set exactly when osc_sr and osc_freq are, and then it is PHASE_DELTA of the two. -/
def OscInv (s : State) : Prop :=
  s.oscDelta =
    match s.oscSr, s.oscFreq with
    | some sr, some f => some (BitVec.ofNat 32 (phaseDelta f.toNat sr.toNat))
    | _, _ => none

/-- R37 (a) and (b), the canonical form of the storage (20_memory.md R60), and R33: every slot of the logical sequence has
been written. -/
def RingInv {w : Nat} (cap : Nat) (r : RingBuf w) : Prop :=
  r.size.toNat ≤ cap
    ∧ r.tail.toNat = (r.head.toNat + r.size.toNat) % cap
    ∧ Memory.wf r.slots
    ∧ Memory.within cap r.slots
    ∧ ∀ i, i < r.size.toNat → (memLookup r.slots (slotOf cap r i)).isSome = true

/-- R40 and R41: mp_status is 0x00 exactly in AWAIT_STATUS, a recognised status byte otherwise; mp_data1 is 0 but in
AWAIT_DATA2. -/
def ParserInv (s : State) : Prop :=
  (s.mpState = .awaitStatus ↔ s.mpStatus = 0)
    ∧ (s.mpState ≠ .awaitStatus → recognisedStatus s.mpStatus = true)
    ∧ (s.mpState ≠ .awaitData2 → s.mpData1 = 0)

/-- R43: every queued note has a kind of 0, 1 or 2. -/
def NotesInv (s : State) : Prop := ∀ n ∈ mqSeq s, n.toNat / 2 ^ 14 ≤ 2

/-- The reset column of R20, register by register (R49). -/
def RegistersAtReset (s : State) : Prop :=
  s.envPhase = .idle ∧ s.envOut = 0 ∧ s.envArate = none ∧ s.envRrate = none
    ∧ s.oscPhase = 0 ∧ s.oscSr = none ∧ s.oscFreq = none ∧ s.oscDelta = none
    ∧ s.rb0.head = 0 ∧ s.rb0.tail = 0 ∧ s.rb0.size = 0
    ∧ s.mpState = .awaitStatus ∧ s.mpStatus = 0 ∧ s.mpData1 = 0
    ∧ s.mq.head = 0 ∧ s.mq.tail = 0 ∧ s.mq.size = 0

/-- All of them, with every register in its legal values (R20). -/
def BlockInv (s : State) : Prop :=
  stateLegal s = true ∧ EnvInv s ∧ OscInv s ∧ RingInv s.cfg.rb0Cap s.rb0 ∧ RingInv s.cfg.mqCap s.mq
    ∧ ParserInv s ∧ NotesInv s

/-! ## What a host can see (spec/10_state.md R38) -/

/-- Two states that differ at most in the bookkeeping of the two buffers: heads, tails and slots outside the logical
sequences. -/
def SameView (a b : State) : Prop :=
  a.envPhase = b.envPhase ∧ a.envOut = b.envOut ∧ a.envArate = b.envArate ∧ a.envRrate = b.envRrate
    ∧ a.oscPhase = b.oscPhase ∧ a.oscSr = b.oscSr ∧ a.oscFreq = b.oscFreq ∧ a.oscDelta = b.oscDelta
    ∧ a.mpState = b.mpState ∧ a.mpStatus = b.mpStatus ∧ a.mpData1 = b.mpData1
    ∧ rb0Seq a = rb0Seq b ∧ mqSeq a = mqSeq b
    ∧ a.cfg = b.cfg ∧ a.port = b.port ∧ a.out = b.out

/-! ## A bounded queue, in the words of spec/43_ringbuffer.md R191 -/

/-- What a push does to a logical sequence. -/
def queuePush {α : Type} (cap : Nat) (policy : Policy) (x : α) (q : List α) : List α :=
  if q.length < cap then q ++ [x]
  else
    match policy with
    | .overwrite => q.tail ++ [x]
    | .discard => q

/-! ## One cycle of the envelope, in the words of spec/41_envelope.md R139 -/

/-- env_out after `k` steps of a cycle from IDLE with rates `a` and `r`. -/
def cycleOut (a r k : Nat) : Nat :=
  if k < ceilDiv ONE a then k * a
  else if k < ceilDiv ONE a + ceilDiv ONE r then ONE - (k - ceilDiv ONE a) * r
  else 0

/-- env_phase after `k` steps of the same cycle, the gate already given. -/
def cyclePhase (a r k : Nat) : EnvPhase :=
  if k < ceilDiv ONE a then .attack
  else if k < ceilDiv ONE a + ceilDiv ONE r then .release
  else .idle

/-! ## Units (spec/00_scope.md R2) -/

/-- The unit number, the high nibble of the opcode. -/
def unitOf (i : Instr) : Nat := i.mnemonic.opcode.toNat / 16

/-- The ENV registers are the same. -/
def SameEnv (a b : State) : Prop :=
  a.envPhase = b.envPhase ∧ a.envOut = b.envOut ∧ a.envArate = b.envArate ∧ a.envRrate = b.envRrate

/-- The OSC registers are the same. -/
def SameOsc (a b : State) : Prop :=
  a.oscPhase = b.oscPhase ∧ a.oscSr = b.oscSr ∧ a.oscFreq = b.oscFreq ∧ a.oscDelta = b.oscDelta

/-- The MIDI registers and MQ are the same. -/
def SameMidi (a b : State) : Prop :=
  a.mpState = b.mpState ∧ a.mpStatus = b.mpStatus ∧ a.mpData1 = b.mpData1 ∧ a.mq = b.mq

/-! ## Usage rules (spec/70_reset_and_hazards.md, section 3): what software must do. None is checked by the block. -/

/-- R289: an index below the logical size. -/
def IndexWithinSize (i : Instr) (s : State) : Prop :=
  match i with
  | .rbAt idx => idx.toNat < s.rb0.size.toNat
  | _ => True

/-- R282: both rates and the increment are set, so that no step command answers ERR(UNSET). -/
def Booted (s : State) : Prop :=
  s.envArate.isSome = true ∧ s.envRrate.isSome = true ∧ s.oscDelta.isSome = true

/-- R284 and R285: a stream for one block holds exactly `blockSize` samples of each generator. -/
def WholeBlock (blockSize : Nat) (is : List Instr) : Prop :=
  is.count .envStep = blockSize ∧ is.count .oscStep = blockSize

/-- The rising edges of a sampled gate signal, from the level before it. -/
def risingEdges : Bool → List Bool → Nat
  | _, [] => 0
  | before, now :: rest => (if before = false ∧ now = true then 1 else 0) + risingEdges now rest

/-- R286: one ENV.GATE for each rising edge. DESIGN CHOICE, notes/assumptions/19.md: the spec does not say what level the gate
signal has before the first sample of a stream; here it is low, so a stream that begins with the gate held counts an edge. -/
def OneGatePerEdge (levels : List Bool) (is : List Instr) : Prop := is.count .envGate = risingEdges false levels

/-- R287: both rates were computed from the oscillator's sample rate. -/
def RatesMatch (attackMs releaseMs : BitVec 24) (s : State) : Prop :=
  ∃ sr, s.oscSr = some sr ∧ s.envArate = some (rateRegister attackMs sr) ∧ s.envRrate = some (rateRegister releaseMs sr)

/-- A command with the host that sent it (spec/60_exceptions.md R261). The block never sees the host. -/
structure Arrival where
  host : Nat
  command : Instr
deriving DecidableEq, Repr

/-- What one host sent, in its order. -/
def sentBy (host : Nat) (arrivals : List Arrival) : List Instr :=
  (arrivals.filter (fun a => a.host == host)).map Arrival.command

/-- The commands of several hosts serialised at the port, in the order they arrive (spec/20_memory.md R70). -/
def present (arrivals : List Arrival) (s : State) : State :=
  withPort (s.port ++ arrivals.map (fun a => .command (encode a.command))) s

/-- All commands of a set come from one host. -/
def OneHost (p : Instr → Bool) (arrivals : List Arrival) : Prop :=
  ∃ h, ∀ a ∈ arrivals, p a.command = true → a.host = h

/-- RB.PUSH. -/
def producesRb0 : Instr → Bool
  | .rbPush _ => true
  | _ => false

/-- RB.POP, RB.AT, RB.CLEAR. -/
def consumesRb0 : Instr → Bool
  | .rbPop => true
  | .rbAt _ => true
  | .rbClear => true
  | _ => false

/-- MIDI.PARSE. -/
def producesMq : Instr → Bool
  | .midiParse _ => true
  | _ => false

/-- MIDI.POP. -/
def consumesMq : Instr → Bool
  | .midiPop => true
  | _ => false

/-- R288: for each buffer at most one producer and at most one consumer. -/
def OneProducerOneConsumer (arrivals : List Arrival) : Prop :=
  OneHost producesRb0 arrivals ∧ OneHost consumesRb0 arrivals ∧ OneHost producesMq arrivals ∧ OneHost consumesMq arrivals

/-- R292: one issuing host for each of ENV.SETA, ENV.SETR, OSC.SETSR, OSC.SETF and ENV.GATE. -/
def OneWriterPerParameter (arrivals : List Arrival) : Prop :=
  ∀ m ∈ [Mnemonic.envSeta, Mnemonic.envSetr, Mnemonic.oscSetsr, Mnemonic.oscSetf, Mnemonic.envGate],
    OneHost (fun i => i.mnemonic == m) arrivals

end Sys2Proof.Machine
end

