-- ==== Sys2Proof/Certificates/Slice0/Obligations.lean ====
section
/-!
DEFINITION. The statements about the model, in the order of OBLIGATIONS.json. Where a docstring cites a rule R<n>, the statement
formalises it. `responseWord` is pinned to the words of spec/00_scope.md R15 by ResponseWordsAreTheOnesOfTheTable.
-/

open Sys2Proof Sys2Proof.Machine

/-! ## Encoding and stepping -/

/-- Every command with every value of every operand is read back from its word. -/
def Obligations.DecodeOfEncodeIsTheCommand : Prop :=
  ∀ i : Instr, decode (encode i) = .ok i

/-- A word the decoder accepts is the word of the command it gives: no two words are one command. -/
def Obligations.EncodeOfDecodeIsTheWord : Prop :=
  ∀ (cmd : CmdWord) (i : Instr), decode cmd = .ok i → encode i = cmd

/-- spec/30_encoding.md R93: the decoder reads a row's command exactly from the words that match the row under its mask, and
no two rows match one word. -/
def Obligations.DecoderAcceptsExactlyTheOpcodeMap : Prop :=
  (∀ row ∈ opcodeTable, ∀ cmd : CmdWord,
      (∃ i, decode cmd = .ok i ∧ i.mnemonic = row.mnemonic) ↔ cmd &&& row.mask = row.pattern)
    ∧ (∀ i : Instr, ∃ row ∈ opcodeTable, row.mnemonic = i.mnemonic)
    ∧ (∀ r ∈ opcodeTable, ∀ q ∈ opcodeTable, ∀ cmd : CmdWord,
        cmd &&& r.mask = r.pattern → cmd &&& q.mask = q.pattern → r = q)

/-- spec/60_exceptions.md R251: a word that is none of the 23 encodings writes nothing and answers 0x9000_0000_0000_0000. -/
def Obligations.IllegalWordsAnswerIllegal : Prop :=
  ∀ (s : State) (cmd : CmdWord) (rest : List Input),
    stateLegal s = true → s.port = .command cmd :: rest →
    (∀ row ∈ opcodeTable, cmd &&& row.mask ≠ row.pattern) →
      step s = .next { s with port := rest, out := s.out ++ [0x9000000000000000] }

/-- A step accepts the oldest word on the port and runs exactly the command it decodes to. -/
def Obligations.StepRunsTheDecodedCommand : Prop :=
  ∀ (s : State) (cmd : CmdWord) (rest : List Input) (i : Instr),
    s.port = .command cmd :: rest → decode cmd = .ok i → step s = exec i { s with port := rest }

/-- With nothing presented the block does nothing. That such a step is a next state is the model's choice
(notes/assumptions/4.md) of the sentence "The block does nothing between commands" of spec/00_scope.md. -/
def Obligations.IdlePortLeavesTheBlockAlone : Prop :=
  ∀ s : State, stateLegal s = true → s.port = [] → step s = .next s

/-- spec/70_reset_and_hazards.md R280: the reset input writes every register with its reset value, leaves the slots as they
are, and answers nothing. R281: SYS.RESET has the same effect and adds its OK. That a reset leaves the events waiting on the
port and the words emitted is the model's choice (notes/assumptions/10.md): the spec says nothing of them. -/
def Obligations.ResetInputWritesEveryRegister : Prop :=
  ∀ (s : State) (rest : List Input), stateLegal s = true → s.port = .reset :: rest →
    ∃ t, step s = .next t
      ∧ t =
          { envPhase := .idle, envOut := 0, envArate := none, envRrate := none
            oscPhase := 0, oscSr := none, oscFreq := none, oscDelta := none
            rb0 := { head := 0, tail := 0, size := 0, slots := s.rb0.slots }
            mpState := .awaitStatus, mpStatus := 0, mpData1 := 0
            mq := { head := 0, tail := 0, size := 0, slots := s.mq.slots }
            cfg := s.cfg, port := rest, out := s.out }
      ∧ exec .sysReset { s with port := rest } = .next { t with out := s.out ++ [responseWord .ok] }

/-- Words of spec/95_test_vectors.md section 3.1 decode to what its table says, and two of its illegal words do not. -/
def Obligations.SampleWordsDecode : Prop :=
  decode 0x0100000000000000 = .ok .sysReset
    ∧ decode 0x1200000001000FA0 = .ok (.envSeta 1 4000)
    ∧ decode 0x130000000A00BB80 = .ok (.envSetr 10 48000)
    ∧ decode 0x210000000000BB80 = .ok (.oscSetsr 48000)
    ∧ decode 0x2200000001B80000 = .ok (.oscSetf 0x01B80000)
    ∧ decode 0x30000000FFFFC000 = .ok (.rbPush 0xFFFFC000)
    ∧ decode 0x3200000000000003 = .ok (.rbAt 3)
    ∧ decode 0x4000000000000090 = .ok (.midiParse 0x90)
    ∧ decode 0x4000000000000190 = .error .operandPadding
    ∧ decode 0x1001000000000000 = .error .reservedField

/-- A stream of command words on the port runs as the rules of its commands, one step a command, whatever waits behind it
(spec/00_scope.md section 7, 20_memory.md section 3). That what is presented is a list on the state is the model's choice
(notes/assumptions/2.md). -/
def Obligations.StreamOfWordsRunsAsItsCommands : Prop :=
  ∀ (is : List Instr) (s t : State) (rest : List Input),
    execAll is { s with port := rest } = .next t →
      Host.Core.run Sys2Proof.core is.length
        { s with port := is.map (fun i => .command (encode i)) ++ rest } = .next t

/-! ## Responses, errors and stops -/

/-- spec/00_scope.md R15: the five response words and their fields, ERR, ECODE, VALID, eleven zeros, DATA; every command ends with
exactly one of them. -/
def Obligations.ResponseWordsAreTheOnesOfTheTable : Prop :=
  responseWord .ok = 0x0000000000000000
    ∧ (∀ d : BitVec 48, responseWord (.okd d) = 0x0800000000000000 + d.setWidth 64)
    ∧ responseWord (.err .illegal) = 0x9000000000000000
    ∧ responseWord (.err .badOperand) = 0xA000000000000000
    ∧ responseWord (.err .unset) = 0xB000000000000000
    ∧ (∀ r : Response,
        (responseWord r).extractLsb' 48 11 = 0
          ∧ ((responseWord r).extractLsb' 60 3).toNat < 4
          ∧ ((responseWord r).extractLsb' 63 1 = 1 ↔ ∃ e, r = .err e)
          ∧ ((responseWord r).extractLsb' 59 1 = 1 ↔ ∃ d, r = .okd d)
          ∧ (∀ d, r = .okd d → (responseWord r).extractLsb' 0 48 = d)
          ∧ ((¬∃ d, r = .okd d) → (responseWord r).extractLsb' 0 48 = 0))
    ∧ ∀ (i : Instr) (s t : State), exec i s = .next t → ∃ r : Response, t.out = s.out ++ [responseWord r]

/-- Every command that completes emits exactly one response word and leaves the command port as it was. The port clause is the
model's choice: what waits on it is a list (notes/assumptions/2.md), which SYS.RESET leaves too (notes/assumptions/10.md). -/
def Obligations.OneResponsePerCommand : Prop :=
  ∀ (i : Instr) (s t : State), exec i s = .next t →
    t.port = s.port ∧ ∃ r : Response, r ≠ .err .illegal ∧ t.out = s.out ++ [responseWord r]

/-- A command that answers an error wrote nothing (spec/60_exceptions.md section 4). Bit 63 is the ERR bit of the word. -/
def Obligations.ErrorResponsesWriteNothing : Prop :=
  ∀ (i : Instr) (s t : State) (word : RspWord), exec i s = .next t → t.out = s.out ++ [word] →
    word.getLsbD 63 = true → t = { s with out := s.out ++ [word] }

/-- spec/60_exceptions.md R252: ERR(BAD_OPERAND) answers a sample-rate operand of 0 in ENV.SETA, ENV.SETR and OSC.SETSR, and
nothing else; nothing is written. -/
def Obligations.BadOperandIsASampleRateOfZero : Prop :=
  ∀ (i : Instr) (s : State), stateLegal s = true →
    ((∃ t, exec i s = .next t ∧ t.out = s.out ++ [0xA000000000000000])
        ↔ (∃ t, i = .envSeta t 0) ∨ (∃ t, i = .envSetr t 0) ∨ i = .oscSetsr 0)
      ∧ ∀ t, exec i s = .next t → t.out = s.out ++ [0xA000000000000000] →
          t = { s with out := s.out ++ [0xA000000000000000] }

/-- spec/60_exceptions.md R253: ERR(UNSET) answers exactly the commands that read a register that is UNSET; nothing is
written; the setters of the register end the condition. -/
def Obligations.UnsetIsAReadOfAnUnsetRegister : Prop :=
  ∀ (i : Instr) (s : State), stateLegal s = true →
    ((∃ t, exec i s = .next t ∧ t.out = s.out ++ [0xB000000000000000])
        ↔ (i = .envStep ∧ s.envPhase = .attack ∧ s.envArate = none)
          ∨ (i = .envStep ∧ s.envPhase = .release ∧ s.envRrate = none)
          ∨ (i = .envRda ∧ s.envArate = none)
          ∨ (i = .envRdr ∧ s.envRrate = none)
          ∨ (i = .oscStep ∧ s.oscDelta = none)
          ∨ (i = .oscRdd ∧ s.oscDelta = none))
      ∧ (∀ t, exec i s = .next t → t.out = s.out ++ [0xB000000000000000] →
          t = { s with out := s.out ++ [0xB000000000000000] })
      ∧ ∀ t, exec i s = .next t →
          (∀ time sr, i = .envSeta time sr → sr ≠ 0 → t.envArate ≠ none)
          ∧ (∀ time sr, i = .envSetr time sr → sr ≠ 0 → t.envRrate ≠ none)
          ∧ (∀ sr, i = .oscSetsr sr → sr ≠ 0 → s.oscFreq ≠ none → t.oscDelta ≠ none)
          ∧ (∀ w, i = .oscSetf w → s.oscSr ≠ none → t.oscDelta ≠ none)

/-- From a legal state every command completes but RB.AT at or beyond the logical size, which is undefined and faults. -/
def Obligations.OnlyRbAtBeyondTheSizeStops : Prop :=
  ∀ (i : Instr) (s : State), stateLegal s = true →
    ((∃ t, exec i s = .next t) ↔ IndexWithinSize i s)
      ∧ (exec i s = .fault .rbAtBeyondSize ↔ ∃ idx, i = .rbAt idx ∧ s.rb0.size.toNat ≤ idx.toNat)
      ∧ exec i s ≠ .refused .illegalState

/-- A state with a register outside its legal values has no successor: every command and every event is refused. -/
def Obligations.IllegalStatesAreRefused : Prop :=
  ∀ s : State, stateLegal s = false →
    (∀ i : Instr, exec i s = .refused .illegalState) ∧ step s = .refused .illegalState

/-! ## SYS -/

/-- spec/40_sys.md R120: SYS.NOP is the all-zero word, answers OK and changes nothing. -/
def Obligations.SysNopOnlyAnswersOk : Prop :=
  encode .sysNop = 0x0000000000000000
    ∧ ∀ s : State, stateLegal s = true →
        exec .sysNop s = .next { s with out := s.out ++ [responseWord .ok] }

/-- spec/40_sys.md R121: SYS.RESET gives every register its reset value, keeps the storage slots and answers OK. That it leaves
the events waiting on the port and the words emitted is the model's choice (notes/assumptions/10.md): the spec says nothing
of them. -/
def Obligations.SysResetWritesEveryRegister : Prop :=
  encode .sysReset = 0x0100000000000000
    ∧ ∀ s : State, stateLegal s = true →
        exec .sysReset s =
          .next
            { envPhase := .idle, envOut := 0, envArate := none, envRrate := none
              oscPhase := 0, oscSr := none, oscFreq := none, oscDelta := none
              rb0 := { head := 0, tail := 0, size := 0, slots := s.rb0.slots }
              mpState := .awaitStatus, mpStatus := 0, mpData1 := 0
              mq := { head := 0, tail := 0, size := 0, slots := s.mq.slots }
              cfg := s.cfg, port := s.port, out := s.out ++ [responseWord .ok] }

/-! ## ENV -/

/-- spec/41_envelope.md R131: ENV.STEP in each phase, with its errors; the response carries the values after the step. -/
def Obligations.EnvStepMakesOnePhaseEvaluation : Prop :=
  encode .envStep = 0x1000000000000000
    ∧ ∀ s : State, stateLegal s = true →
        (s.envPhase = .idle →
          exec .envStep s =
            .next { s with out := s.out ++ [responseWord (.okd (BitVec.ofNat 48 s.envOut.toNat))] })
        ∧ (s.envPhase = .attack → s.envArate = none →
          exec .envStep s = .next { s with out := s.out ++ [responseWord (.err .unset)] })
        ∧ (∀ a : BitVec 32, s.envPhase = .attack → s.envArate = some a → s.envOut.toNat + a.toNat < ONE →
          exec .envStep s =
            .next
              { s with
                envOut := BitVec.ofNat 32 (s.envOut.toNat + a.toNat)
                out := s.out ++ [responseWord (.okd (BitVec.ofNat 48 (1 * 2 ^ 32 + (s.envOut.toNat + a.toNat))))] })
        ∧ (∀ a : BitVec 32, s.envPhase = .attack → s.envArate = some a → ONE ≤ s.envOut.toNat + a.toNat →
          exec .envStep s =
            .next
              { s with
                envPhase := .release
                envOut := 0x80000000
                out := s.out ++ [responseWord (.okd (BitVec.ofNat 48 (2 * 2 ^ 32 + ONE)))] })
        ∧ (s.envPhase = .release → s.envRrate = none →
          exec .envStep s = .next { s with out := s.out ++ [responseWord (.err .unset)] })
        ∧ (∀ r : BitVec 32, s.envPhase = .release → s.envRrate = some r → r.toNat < s.envOut.toNat →
          exec .envStep s =
            .next
              { s with
                envOut := BitVec.ofNat 32 (s.envOut.toNat - r.toNat)
                out := s.out ++ [responseWord (.okd (BitVec.ofNat 48 (2 * 2 ^ 32 + (s.envOut.toNat - r.toNat))))] })
        ∧ (∀ r : BitVec 32, s.envPhase = .release → s.envRrate = some r → s.envOut.toNat ≤ r.toNat →
          exec .envStep s =
            .next
              { s with
                envPhase := .idle
                envOut := 0
                out := s.out ++ [responseWord (.okd 0)] })

/-- spec/41_envelope.md R132: ENV.GATE enters ATTACK from any phase, keeps the output, answers OK; two in a row equal one. -/
def Obligations.EnvGateEntersAttackAndKeepsTheOutput : Prop :=
  encode .envGate = 0x1100000000000000
    ∧ ∀ s : State, stateLegal s = true →
        exec .envGate s = .next { s with envPhase := .attack, out := s.out ++ [responseWord .ok] }
        ∧ (s.envPhase = .attack → exec .envGate s = .next { s with out := s.out ++ [responseWord .ok] })

/-- spec/41_envelope.md R133: ENV.SETA t, s sets the attack rate to RATE(t, s) and writes nothing else; RATE is pinned by
RateIsTheRoundedUpQuotient. -/
def Obligations.EnvSetaSetsTheAttackRate : Prop :=
  ∀ t sr : BitVec 24,
    encode (.envSeta t sr) = 0x1200000000000000 + BitVec.ofNat 64 (t.toNat * 2 ^ 24 + sr.toNat)
    ∧ ∀ s : State, stateLegal s = true →
        (sr ≠ 0 →
          exec (.envSeta t sr) s =
            .next
              { s with
                envArate := some (BitVec.ofNat 32 (rate t.toNat sr.toNat))
                out := s.out ++ [responseWord .ok] })
        ∧ (sr = 0 → exec (.envSeta t sr) s = .next { s with out := s.out ++ [responseWord (.err .badOperand)] })

/-- spec/41_envelope.md R135: ENV.SETR t, s sets the release rate to RATE(t, s) and writes nothing else. -/
def Obligations.EnvSetrSetsTheReleaseRate : Prop :=
  ∀ t sr : BitVec 24,
    encode (.envSetr t sr) = 0x1300000000000000 + BitVec.ofNat 64 (t.toNat * 2 ^ 24 + sr.toNat)
    ∧ ∀ s : State, stateLegal s = true →
        (sr ≠ 0 →
          exec (.envSetr t sr) s =
            .next
              { s with
                envRrate := some (BitVec.ofNat 32 (rate t.toNat sr.toNat))
                out := s.out ++ [responseWord .ok] })
        ∧ (sr = 0 → exec (.envSetr t sr) s = .next { s with out := s.out ++ [responseWord (.err .badOperand)] })

/-- spec/41_envelope.md R136: ENV.STAT answers `env_phase * 2^32 + env_out` and writes nothing. -/
def Obligations.EnvStatReadsPhaseAndOutput : Prop :=
  encode .envStat = 0x1400000000000000
    ∧ ∀ s : State, stateLegal s = true →
        (s.envPhase = .idle →
          exec .envStat s =
            .next { s with out := s.out ++ [responseWord (.okd (BitVec.ofNat 48 (0 * 2 ^ 32 + s.envOut.toNat)))] })
        ∧ (s.envPhase = .attack →
          exec .envStat s =
            .next { s with out := s.out ++ [responseWord (.okd (BitVec.ofNat 48 (1 * 2 ^ 32 + s.envOut.toNat)))] })
        ∧ (s.envPhase = .release →
          exec .envStat s =
            .next { s with out := s.out ++ [responseWord (.okd (BitVec.ofNat 48 (2 * 2 ^ 32 + s.envOut.toNat)))] })

/-- spec/41_envelope.md R137 and R138: ENV.RDA and ENV.RDR answer a rate that is set, and ERR(UNSET) otherwise. -/
def Obligations.EnvRateReadsAnswerASetRate : Prop :=
  encode .envRda = 0x1500000000000000 ∧ encode .envRdr = 0x1600000000000000
    ∧ ∀ s : State, stateLegal s = true →
        (∀ a : BitVec 32, s.envArate = some a →
          exec .envRda s = .next { s with out := s.out ++ [responseWord (.okd (BitVec.ofNat 48 a.toNat))] })
        ∧ (s.envArate = none → exec .envRda s = .next { s with out := s.out ++ [responseWord (.err .unset)] })
        ∧ (∀ r : BitVec 32, s.envRrate = some r →
          exec .envRdr s = .next { s with out := s.out ++ [responseWord (.okd (BitVec.ofNat 48 r.toNat))] })
        ∧ (s.envRrate = none → exec .envRdr s = .next { s with out := s.out ++ [responseWord (.err .unset)] })

/-- spec/41_envelope.md R130: the transitions of the envelope, and no others. Only SYS.RESET, no event of the table, is left
aside; R27 (b), that IDLE has output 0, is the premise. -/
def Obligations.EnvelopeTransitionsAreTheTable : Prop :=
  ∀ (i : Instr) (s t : State), EnvInv s → exec i s = .next t → i ≠ .sysReset →
    (i ≠ .envStep → i ≠ .envGate → t.envPhase = s.envPhase ∧ t.envOut = s.envOut)
    ∧ (i = .envGate → t.envPhase = .attack ∧ t.envOut = s.envOut)
    ∧ (i = .envStep → s.envPhase = .idle → t.envPhase = .idle ∧ t.envOut = 0)
    ∧ (i = .envStep → s.envPhase = .attack → ∀ a : BitVec 32, s.envArate = some a →
        (s.envOut.toNat + a.toNat < ONE →
          t.envPhase = .attack ∧ t.envOut.toNat = s.envOut.toNat + a.toNat)
        ∧ (ONE ≤ s.envOut.toNat + a.toNat → t.envPhase = .release ∧ t.envOut.toNat = ONE))
    ∧ (i = .envStep → s.envPhase = .release → ∀ r : BitVec 32, s.envRrate = some r →
        (r.toNat < s.envOut.toNat →
          t.envPhase = .release ∧ t.envOut.toNat = s.envOut.toNat - r.toNat)
        ∧ (s.envOut.toNat ≤ r.toNat → t.envPhase = .idle ∧ t.envOut.toNat = 0))
    ∧ (i = .envStep → s.envPhase = .attack → s.envArate = none → t.envPhase = .attack ∧ t.envOut = s.envOut)
    ∧ (i = .envStep → s.envPhase = .release → s.envRrate = none → t.envPhase = .release ∧ t.envOut = s.envOut)

/-- spec/00_scope.md R9: RATE is the exact quotient rounded up and saturated at ONE, ONE when t * s is 0; it is in [1, ONE]. -/
def Obligations.RateIsTheRoundedUpQuotient : Prop :=
  ∀ t s : Nat,
    (t * s = 0 → rate t s = ONE)
    ∧ (t * s ≠ 0 → (rate t s : ℤ) = min ⌈((ONE : ℚ) * 1000) / ((t : ℚ) * (s : ℚ))⌉ (ONE : ℤ))
    ∧ 1 ≤ rate t s ∧ rate t s ≤ ONE

/-- The shape of one cycle: ENV.GATE from IDLE and then `k` ENV.STEP give the outputs and phases of the sentence "The shape of
one cycle" of spec/41_envelope.md section 6, in the state and in every response. -/
def Obligations.EnvelopeCycleHasItsShape : Prop :=
  ∀ (s : State) (a r : BitVec 32) (k : Nat), stateLegal s = true → s.envPhase = .idle → s.envOut = 0 →
    s.envArate = some a → s.envRrate = some r →
      execAll (.envGate :: List.replicate k .envStep) s =
        .next
          { s with
            envPhase := cyclePhase a.toNat r.toNat k
            envOut := BitVec.ofNat 32 (cycleOut a.toNat r.toNat k)
            out :=
              s.out ++ responseWord .ok ::
                (List.range k).map (fun j =>
                  responseWord
                    (.okd
                      (BitVec.ofNat 48
                        (envPhaseCode (cyclePhase a.toNat r.toNat (j + 1)) * 2 ^ 32 + cycleOut a.toNat r.toNat (j + 1))))) }

/-- How far the fixed-point rate keeps the source's step count (clauses (a) to (d) of the step-count property of
spec/41_envelope.md section 6), with Ka = ceil(ONE / RATE) and A = t * s / 1000. -/
def Obligations.AttackIsNeverLate : Prop :=
  ∀ t s : Nat, 1 ≤ t * s →
    ceilDiv ONE (rate t s) ≤ max 1 (ceilDiv (t * s) 1000)
    ∧ (ceilDiv ONE (rate t s) = max 1 (ceilDiv (t * s) 1000) ↔ (ceilDiv (t * s) 1000 - 1) * rate t s < ONE)
    ∧ (t * s % 1000 = 0 → t * s / 1000 ≤ 46341 → ceilDiv ONE (rate t s) = max 1 (ceilDiv (t * s) 1000))
    ∧ t * s * ONE < ceilDiv ONE (rate t s) * (ONE * 1000 + t * s)

/-- A retrigger in RELEASE continues from the current output: the next step returns min(v + env_arate, ONE), more than v unless
v = ONE (the retrigger property of spec/41_envelope.md section 6). -/
def Obligations.RetriggerContinuesFromTheOutput : Prop :=
  ∀ (s : State) (a : BitVec 32), stateLegal s = true → EnvInv s → s.envPhase = .release → s.envArate = some a →
    ∃ t, execAll [.envGate, .envStep] s = .next t
      ∧ t.envOut.toNat = min (s.envOut.toNat + a.toNat) ONE
      ∧ 0 < s.envOut.toNat
      ∧ (s.envOut.toNat ≠ ONE → s.envOut.toNat < t.envOut.toNat)
      ∧ (t.envPhase = .release ↔ ONE ≤ s.envOut.toNat + a.toNat)

/-! ## OSC -/

/-- spec/42_oscillator.md R161: OSC.STEP answers the sample at the phase before the increment and advances the phase modulo
2^32; UNSET without an increment. The sample is pinned by LutReadIsTheInterpolatedEntry. -/
def Obligations.OscStepReadsThenAdvances : Prop :=
  encode .oscStep = 0x2000000000000000
    ∧ ∀ s : State, stateLegal s = true →
        (s.oscDelta = none → exec .oscStep s = .next { s with out := s.out ++ [responseWord (.err .unset)] })
        ∧ ∀ d : BitVec 32, s.oscDelta = some d →
            exec .oscStep s =
              .next
                { s with
                  oscPhase := s.oscPhase + d
                  out :=
                    s.out ++
                      [responseWord (.okd ((BitVec.ofInt 32 (lutRead s.cfg s.oscPhase.toNat)).setWidth 48))] }

/-- spec/00_scope.md R14: LUT_READ reads entry idx, the top LUT_AW bits of the phase, and under LINEAR adds the part of the way
to its neighbour that the remaining bits say, rounded down; the result is in [-SONE, +SONE]. -/
def Obligations.LutReadIsTheInterpolatedEntry : Prop :=
  ∀ (c : Config) (p : Nat), p < 2 ^ 32 →
    ∃ a b : ℤ,
      c.lutInit[p / 2 ^ (32 - c.lutAw)]? = some a
      ∧ c.lutInit[match c.oscEdge with
          | .wrap => (p / 2 ^ (32 - c.lutAw) + 1) % 2 ^ c.lutAw
          | .clamp => min (p / 2 ^ (32 - c.lutAw) + 1) (2 ^ c.lutAw - 1)]? = some b
      ∧ (c.oscInterp = .none → lutRead c p = a)
      ∧ (c.oscInterp = .linear →
          lutRead c p =
            a + ⌊(((b : ℚ) - (a : ℚ)) * ((p % 2 ^ (32 - c.lutAw) : ℕ) : ℚ)) / (2 : ℚ) ^ (32 - c.lutAw)⌋)
      ∧ -32768 ≤ lutRead c p ∧ lutRead c p ≤ 32768

/-- The table boundary (the property of spec/42_oscillator.md section "Consistency at the table boundary"): a phase on a table
point reads that entry under every setting; under LINEAR and CLAMP the last segment is flat; under LINEAR and WRAP it stays
between the last entry and entry 0. -/
def Obligations.TableBoundaryIsConsistent : Prop :=
  ∀ (c : Config) (last first : ℤ), c.lutInit[2 ^ c.lutAw - 1]? = some last → c.lutInit[0]? = some first →
    (∀ idx v, c.lutInit[idx]? = some v → lutRead c (idx * 2 ^ (32 - c.lutAw)) = v)
    ∧ ∀ p, (2 ^ c.lutAw - 1) * 2 ^ (32 - c.lutAw) ≤ p → p < 2 ^ 32 →
        (c.oscInterp = .linear → c.oscEdge = .clamp → lutRead c p = last)
        ∧ (c.oscInterp = .linear → c.oscEdge = .wrap → min last first ≤ lutRead c p ∧ lutRead c p ≤ max last first)

/-- spec/42_oscillator.md R162: OSC.SETSR s sets the sample rate and, where a frequency is set, the increment; a sample rate of
0 writes nothing. -/
def Obligations.OscSetsrSetsRateAndIncrement : Prop :=
  ∀ sr : BitVec 24,
    encode (.oscSetsr sr) = 0x2100000000000000 + sr.setWidth 64
    ∧ ∀ s : State, stateLegal s = true →
        (sr = 0 → exec (.oscSetsr sr) s = .next { s with out := s.out ++ [responseWord (.err .badOperand)] })
        ∧ (sr ≠ 0 → s.oscFreq = none →
          exec (.oscSetsr sr) s = .next { s with oscSr := some sr, out := s.out ++ [responseWord .ok] })
        ∧ ∀ f : BitVec 32, sr ≠ 0 → s.oscFreq = some f →
            exec (.oscSetsr sr) s =
              .next
                { s with
                  oscSr := some sr
                  oscDelta := some (BitVec.ofNat 32 (phaseDelta f.toNat sr.toNat))
                  out := s.out ++ [responseWord .ok] }

/-- spec/42_oscillator.md R164: OSC.SETF w sets the frequency and, where a sample rate is set, the increment; every w is
accepted. -/
def Obligations.OscSetfSetsFrequencyAndIncrement : Prop :=
  ∀ w : BitVec 32,
    encode (.oscSetf w) = 0x2200000000000000 + w.setWidth 64
    ∧ ∀ s : State, stateLegal s = true →
        (s.oscSr = none →
          exec (.oscSetf w) s = .next { s with oscFreq := some w, out := s.out ++ [responseWord .ok] })
        ∧ ∀ sr : BitVec 24, s.oscSr = some sr →
            exec (.oscSetf w) s =
              .next
                { s with
                  oscFreq := some w
                  oscDelta := some (BitVec.ofNat 32 (phaseDelta w.toNat sr.toNat))
                  out := s.out ++ [responseWord .ok] }

/-- spec/42_oscillator.md R165 and R166: OSC.STAT answers the phase; OSC.RDD answers a set increment, ERR(UNSET) otherwise. -/
def Obligations.OscReadsAnswerPhaseAndIncrement : Prop :=
  encode .oscStat = 0x2300000000000000 ∧ encode .oscRdd = 0x2400000000000000
    ∧ ∀ s : State, stateLegal s = true →
        exec .oscStat s = .next { s with out := s.out ++ [responseWord (.okd (BitVec.ofNat 48 s.oscPhase.toNat))] }
        ∧ (∀ d : BitVec 32, s.oscDelta = some d →
          exec .oscRdd s = .next { s with out := s.out ++ [responseWord (.okd (BitVec.ofNat 48 d.toNat))] })
        ∧ (s.oscDelta = none → exec .oscRdd s = .next { s with out := s.out ++ [responseWord (.err .unset)] })

/-- spec/00_scope.md R12: PHASE_DELTA is the quotient f * 2^16 / s rounded down and reduced into one period. -/
def Obligations.PhaseDeltaIsTheReducedQuotient : Prop :=
  ∀ f s : Nat, 1 ≤ s →
    (phaseDelta f s : ℤ) = ⌊((f : ℚ) * 2 ^ 16) / (s : ℚ)⌋ % 2 ^ 32 ∧ phaseDelta f s < 2 ^ 32

/-- What spec/00_scope.md section 5 draws from its primitives: RATE is ONE for one sample or less and never rises with t * s; a
whole multiple of the sample rate is the increment 0, and adding one to a frequency changes nothing; LUT_READ stays between
the entry and its neighbour, and OSC_EDGE has no effect without interpolation. -/
def Obligations.ConsequencesOfThePrimitives : Prop :=
  (∀ t s : Nat, t * s ≤ 1000 → rate t s = ONE)
    ∧ (∀ t s t' s' : Nat, t * s ≤ t' * s' → rate t' s' ≤ rate t s)
    ∧ (∀ f s n : Nat, 1 ≤ s →
        phaseDelta (n * (s * 2 ^ 16)) s = 0 ∧ phaseDelta (f + n * (s * 2 ^ 16)) s = phaseDelta f s)
    ∧ (∀ (c : Config) (p : Nat), p < 2 ^ 32 →
        min (lutEntry c (lutIndex c p)) (lutEntry c (lutNext c (lutIndex c p))) ≤ lutRead c p
          ∧ lutRead c p ≤ max (lutEntry c (lutIndex c p)) (lutEntry c (lutNext c (lutIndex c p))))
    ∧ ∀ (c d : Config) (p : Nat), c.lutAw = d.lutAw → c.lutInit = d.lutInit → c.oscInterp = .none → d.oscInterp = .none →
        lutRead c p = lutRead d p

/-- Period and drift (the property of spec/42_oscillator.md section "Period and drift"): `k` OSC.STEP answer the samples at the
phases p + j * d and leave the phase p + k * d, all modulo 2^32; the phases repeat after 2^32 / gcd(d, 2^32) samples; and
below the sample rate the realised frequency is less than s / 2^32 hertz under the frequency asked for. -/
def Obligations.PhaseAfterManyStepsDoesNotDrift : Prop :=
  (∀ (s : State) (d : BitVec 32) (k : Nat), stateLegal s = true → s.oscDelta = some d →
      execAll (List.replicate k .oscStep) s =
        .next
          { s with
            oscPhase := BitVec.ofNat 32 (s.oscPhase.toNat + k * d.toNat)
            out :=
              s.out ++
                (List.range k).map (fun j =>
                  responseWord
                    (.okd
                      ((BitVec.ofInt 32 (lutRead s.cfg ((s.oscPhase.toNat + j * d.toNat) % 2 ^ 32))).setWidth 48))) })
    ∧ (∀ (p d : BitVec 32) (k : Nat), d ≠ 0 →
        (p.toNat + (k + 2 ^ 32 / Nat.gcd d.toNat (2 ^ 32)) * d.toNat) % 2 ^ 32 = (p.toNat + k * d.toNat) % 2 ^ 32)
    ∧ ∀ f s : Nat, 1 ≤ s → f < s * 2 ^ 16 →
        phaseDelta f s * s ≤ f * 2 ^ 16 ∧ f * 2 ^ 16 < phaseDelta f s * s + s

/-! ## RB -/

/-- spec/43_ringbuffer.md R193: RB.PUSH w in the three cases of rb_push. -/
def Obligations.RbPushInsertsEvictsOrDrops : Prop :=
  ∀ w : BitVec 32,
    encode (.rbPush w) = 0x3000000000000000 + w.setWidth 64
    ∧ ∀ s : State, stateLegal s = true →
        (s.rb0.size.toNat ≠ s.cfg.rb0Cap →
          exec (.rbPush w) s =
            .next
              { s with
                rb0 :=
                  { head := s.rb0.head
                    tail := BitVec.ofNat 16 ((s.rb0.tail.toNat + 1) % s.cfg.rb0Cap)
                    size := BitVec.ofNat 16 (s.rb0.size.toNat + 1)
                    slots := memWrite s.rb0.slots s.rb0.tail.toNat w }
                out := s.out ++ [responseWord .ok] })
        ∧ (s.rb0.size.toNat = s.cfg.rb0Cap → s.cfg.rb0Policy = .discard →
          exec (.rbPush w) s = .next { s with out := s.out ++ [responseWord .ok] })
        ∧ (s.rb0.size.toNat = s.cfg.rb0Cap → s.cfg.rb0Policy = .overwrite →
          exec (.rbPush w) s =
            .next
              { s with
                rb0 :=
                  { head := BitVec.ofNat 16 ((s.rb0.head.toNat + 1) % s.cfg.rb0Cap)
                    tail := BitVec.ofNat 16 ((s.rb0.tail.toNat + 1) % s.cfg.rb0Cap)
                    size := s.rb0.size
                    slots := memWrite s.rb0.slots s.rb0.tail.toNat w }
                out := s.out ++ [responseWord .ok] })

/-- spec/43_ringbuffer.md R194: RB.POP removes and answers the element at the head; an empty buffer answers OK. -/
def Obligations.RbPopRemovesTheOldest : Prop :=
  encode .rbPop = 0x3100000000000000
    ∧ ∀ s : State, stateLegal s = true →
        (s.rb0.size = 0 → exec .rbPop s = .next { s with out := s.out ++ [responseWord .ok] })
        ∧ (s.rb0.size ≠ 0 →
          exec .rbPop s =
            .next
              { s with
                rb0 :=
                  { s.rb0 with
                    head := BitVec.ofNat 16 ((s.rb0.head.toNat + 1) % s.cfg.rb0Cap)
                    size := BitVec.ofNat 16 (s.rb0.size.toNat - 1) }
                out :=
                  s.out ++
                    [responseWord
                      (.okd (BitVec.ofNat 48 (memRead Config.rb0PowerOn s.rb0.slots s.rb0.head.toNat).toNat))] })

/-- spec/43_ringbuffer.md R195: RB.AT i answers the element at the logical index and writes nothing; beyond the logical size it
is undefined, and the model faults. -/
def Obligations.RbAtReadsInsideAndFaultsBeyond : Prop :=
  ∀ idx : BitVec 16,
    encode (.rbAt idx) = 0x3200000000000000 + idx.setWidth 64
    ∧ ∀ s : State, stateLegal s = true →
        (idx.toNat < s.rb0.size.toNat →
          exec (.rbAt idx) s =
            .next
              { s with
                out :=
                  s.out ++
                    [responseWord
                      (.okd
                        (BitVec.ofNat 48
                          (memRead Config.rb0PowerOn s.rb0.slots
                            ((s.rb0.head.toNat + idx.toNat) % s.cfg.rb0Cap)).toNat))] })
        ∧ (s.rb0.size.toNat ≤ idx.toNat → exec (.rbAt idx) s = .fault .rbAtBeyondSize)

/-- spec/43_ringbuffer.md R196 and R197: RB.CLEAR zeroes the three registers and keeps the slots; RB.SIZE answers the size. -/
def Obligations.RbClearEmptiesAndRbSizeCounts : Prop :=
  encode .rbClear = 0x3300000000000000 ∧ encode .rbSize = 0x3400000000000000
    ∧ ∀ s : State, stateLegal s = true →
        exec .rbClear s =
          .next
            { s with
              rb0 := { head := 0, tail := 0, size := 0, slots := s.rb0.slots }
              out := s.out ++ [responseWord .ok] }
        ∧ exec .rbSize s =
          .next { s with out := s.out ++ [responseWord (.okd (BitVec.ofNat 48 s.rb0.size.toNat))] }

/-- What the commands store: RB.PUSH writes the slot at rb0_tail alone (none when full under DISCARD), MIDI.PARSE the slot at
mq_tail alone, and no other command writes any slot; said through the read of one slot. -/
def Obligations.OnlyTheTailSlotIsWritten : Prop :=
  ∀ (i : Instr) (s t : State), exec i s = .next t → ∀ a : Nat,
    ((∀ w, i ≠ .rbPush w) →
      memRead Config.rb0PowerOn t.rb0.slots a = memRead Config.rb0PowerOn s.rb0.slots a)
    ∧ (a ≠ s.rb0.tail.toNat ∨ (s.rb0.size.toNat = s.cfg.rb0Cap ∧ s.cfg.rb0Policy = .discard) →
      memRead Config.rb0PowerOn t.rb0.slots a = memRead Config.rb0PowerOn s.rb0.slots a)
    ∧ (∀ w, i = .rbPush w → ¬(s.rb0.size.toNat = s.cfg.rb0Cap ∧ s.cfg.rb0Policy = .discard) →
      memRead Config.rb0PowerOn t.rb0.slots s.rb0.tail.toNat = w)
    ∧ ((∀ b, i ≠ .midiParse b) →
      memRead Config.mqPowerOn t.mq.slots a = memRead Config.mqPowerOn s.mq.slots a)
    ∧ (a ≠ s.mq.tail.toNat ∨ s.mq.size.toNat = s.cfg.mqCap →
      memRead Config.mqPowerOn t.mq.slots a = memRead Config.mqPowerOn s.mq.slots a)

/-- The logical sequence of RB0 is a bounded first-in first-out queue under every RB command (the sequence sentences of R191
and R192, with the elements every reachable buffer has written). -/
def Obligations.RingBufferRefinesABoundedQueue : Prop :=
  ∀ s : State, stateLegal s = true → RingInv s.cfg.rb0Cap s.rb0 →
    (∀ w, ∃ t, exec (.rbPush w) s = .next t ∧ t.out = s.out ++ [responseWord .ok]
        ∧ rb0Seq t = queuePush s.cfg.rb0Cap s.cfg.rb0Policy w (rb0Seq s))
    ∧ (rb0Seq s = [] → exec .rbPop s = .next { s with out := s.out ++ [responseWord .ok] })
    ∧ (∀ x q, rb0Seq s = x :: q →
        ∃ t, exec .rbPop s = .next t ∧ t.out = s.out ++ [responseWord (.okd (BitVec.ofNat 48 x.toNat))] ∧ rb0Seq t = q)
    ∧ (∀ (idx : BitVec 16) x, (rb0Seq s)[idx.toNat]? = some x →
        exec (.rbAt idx) s = .next { s with out := s.out ++ [responseWord (.okd (BitVec.ofNat 48 x.toNat))] })
    ∧ (∃ t, exec .rbClear s = .next t ∧ rb0Seq t = [])
    ∧ exec .rbSize s =
        .next { s with out := s.out ++ [responseWord (.okd (BitVec.ofNat 48 (rb0Seq s).length))] }

/-- After pushes into an empty RB0, OVERWRITE holds the last RB0_CAP elements pushed and DISCARD the first (clauses (c) and (d)
of the properties of spec/43_ringbuffer.md section 3). -/
def Obligations.PushesKeepTheLastOrTheFirst : Prop :=
  ∀ (s : State) (xs : List (BitVec 32)), BlockInv s → s.rb0.size = 0 →
    ∃ t, execAll (xs.map .rbPush) s = .next t
      ∧ (s.cfg.rb0Policy = .overwrite → rb0Seq t = xs.drop (xs.length - s.cfg.rb0Cap))
      ∧ (s.cfg.rb0Policy = .discard → rb0Seq t = xs.take s.cfg.rb0Cap)

/-! ## MIDI -/

/-- spec/10_state.md R44: a packed note holds kind, pitch and velocity in its three fields, with the kinds numbered 0, 1, 2. The
last clause is the class and kind columns of the table of spec/44_midi.md R222, which the spec takes from general knowledge
(93_implementation_defined.md G1, notes/assumptions/15.md). -/
def Obligations.NotesPackKindPitchAndVelocity : Prop :=
  (∀ (k : NoteKind) (pitch velocity : BitVec 7),
      (packNote k pitch velocity).toNat
          = (match k with
             | .noteOn => 0
             | .noteOff => 1
             | .other => 2) * 2 ^ 14 + pitch.toNat * 2 ^ 7 + velocity.toNat
        ∧ (packNote k pitch velocity).extractLsb' 14 2 ≠ 3
        ∧ (packNote k pitch velocity).extractLsb' 7 7 = pitch
        ∧ (packNote k pitch velocity).extractLsb' 0 7 = velocity)
    ∧ packNote .noteOn 64 127 = 0x207F
    ∧ ∀ b : BitVec 8, 128 ≤ b.toNat →
        statusClass b =
          if b.toNat / 16 = 0x8 then some .noteOff
          else if b.toNat / 16 = 0x9 then some .noteOn
          else if b.toNat / 16 ∈ [0xA, 0xB, 0xE] then some .other
          else none

/-- spec/44_midi.md R223: MIDI.PARSE b, for every byte in every state. -/
def Obligations.MidiParseConsumesOneByte : Prop :=
  ∀ b : BitVec 8,
    encode (.midiParse b) = 0x4000000000000000 + b.setWidth 64
    ∧ ∀ s : State, stateLegal s = true →
        (128 ≤ b.toNat → b.toNat / 16 ∈ [0x8, 0x9, 0xA, 0xB, 0xE] →
          exec (.midiParse b) s =
            .next
              { s with
                mpStatus := b, mpData1 := 0, mpState := .awaitData1
                out := s.out ++ [responseWord .ok] })
        ∧ (128 ≤ b.toNat → b.toNat / 16 ∉ [0x8, 0x9, 0xA, 0xB, 0xE] →
          exec (.midiParse b) s =
            .next
              { s with
                mpStatus := 0, mpData1 := 0, mpState := .awaitStatus
                out := s.out ++ [responseWord .ok] })
        ∧ (b.toNat < 128 → s.mpState = .awaitStatus →
          exec (.midiParse b) s = .next { s with out := s.out ++ [responseWord .ok] })
        ∧ (b.toNat < 128 → s.mpState = .awaitData1 →
          exec (.midiParse b) s =
            .next
              { s with
                mpData1 := BitVec.ofNat 7 b.toNat, mpState := .awaitData2
                out := s.out ++ [responseWord .ok] })
        ∧ (b.toNat < 128 → s.mpState = .awaitData2 → s.mq.size.toNat = s.cfg.mqCap →
          exec (.midiParse b) s =
            .next
              { s with
                mpData1 := 0, mpState := .awaitData1
                out := s.out ++ [responseWord .ok] })
        ∧ (b.toNat < 128 → s.mpState = .awaitData2 → s.mq.size.toNat ≠ s.cfg.mqCap →
          exec (.midiParse b) s =
            .next
              { s with
                mq :=
                  { head := s.mq.head
                    tail := BitVec.ofNat 16 ((s.mq.tail.toNat + 1) % s.cfg.mqCap)
                    size := BitVec.ofNat 16 (s.mq.size.toNat + 1)
                    slots :=
                      memWrite s.mq.slots s.mq.tail.toNat
                        (BitVec.ofNat 16
                          ((if s.mpStatus.toNat / 16 = 0x9 then 0 else if s.mpStatus.toNat / 16 = 0x8 then 1 else 2) * 2 ^ 14
                            + s.mpData1.toNat * 2 ^ 7 + b.toNat)) }
                mpData1 := 0, mpState := .awaitData1
                out := s.out ++ [responseWord .ok] })

/-- spec/44_midi.md R225 and R227: MIDI.AVAIL and MIDI.STAT answer and write nothing. -/
def Obligations.MidiReadsAnswerQueueAndParser : Prop :=
  encode .midiAvail = 0x4100000000000000 ∧ encode .midiStat = 0x4300000000000000
    ∧ ∀ s : State, stateLegal s = true →
        (s.mq.size = 0 → exec .midiAvail s = .next { s with out := s.out ++ [responseWord (.okd 0)] })
        ∧ (s.mq.size ≠ 0 → exec .midiAvail s = .next { s with out := s.out ++ [responseWord (.okd 1)] })
        ∧ exec .midiStat s =
          .next
            { s with
              out :=
                s.out ++
                  [responseWord
                    (.okd
                      (BitVec.ofNat 48
                        (s.mq.size.toNat * 2 ^ 24 + s.mpData1.toNat * 2 ^ 16 + s.mpStatus.toNat * 2 ^ 8
                          + (match s.mpState with
                             | .awaitStatus => 0
                             | .awaitData1 => 1
                             | .awaitData2 => 2))))] }

/-- spec/44_midi.md R226: MIDI.POP removes and answers the oldest note; an empty queue answers OK; the parser is untouched. -/
def Obligations.MidiPopRemovesTheOldestNote : Prop :=
  encode .midiPop = 0x4200000000000000
    ∧ ∀ s : State, stateLegal s = true →
        (s.mq.size = 0 → exec .midiPop s = .next { s with out := s.out ++ [responseWord .ok] })
        ∧ (s.mq.size ≠ 0 →
          exec .midiPop s =
            .next
              { s with
                mq :=
                  { s.mq with
                    head := BitVec.ofNat 16 ((s.mq.head.toNat + 1) % s.cfg.mqCap)
                    size := BitVec.ofNat 16 (s.mq.size.toNat - 1) }
                out :=
                  s.out ++
                    [responseWord
                      (.okd (BitVec.ofNat 48 (memRead Config.mqPowerOn s.mq.slots s.mq.head.toNat).toNat))] })

/-- A recognised status byte and any number of pairs of data bytes queue one note a pair, oldest kept when MQ fills, and leave
the status in effect (clauses (a) and (b) of the properties of spec/44_midi.md section 3: running status). -/
def Obligations.RunningStatusQueuesOneNotePerPair : Prop :=
  ∀ (s : State) (st : BitVec 8) (pairs : List (BitVec 7 × BitVec 7)), BlockInv s → recognisedStatus st = true →
    ∃ t,
      execAll
          (.midiParse st ::
            pairs.flatMap (fun d => [.midiParse (d.1.setWidth 8), .midiParse (d.2.setWidth 8)])) s = .next t
      ∧ mqSeq t = (mqSeq s ++ pairs.map (fun d => packNote (kindOf st) d.1 d.2)).take s.cfg.mqCap
      ∧ t.mpState = .awaitData1 ∧ t.mpStatus = st ∧ t.mpData1 = 0

/-- From AWAIT_STATUS any number of data bytes change nothing but the responses (the first half of clause (c) of the properties
of spec/44_midi.md section 3; RunningStatusQueuesOneNotePerPair says that a message after them is queued). -/
def Obligations.DataWithoutAStatusIsDropped : Prop :=
  ∀ (s : State) (bytes : List (BitVec 8)), stateLegal s = true → s.mpState = .awaitStatus →
    (∀ b ∈ bytes, b.toNat < 128) →
      execAll (bytes.map .midiParse) s =
        .next { s with out := s.out ++ List.replicate bytes.length (responseWord .ok) }

/-- mq_size changes only by one more (a completed message with room), one less (MIDI.POP on a non-empty queue), or to 0 (reset)
(clause (e) of the properties of spec/44_midi.md section 3). -/
def Obligations.MqSizeChangesOnlyByItsEvents : Prop :=
  ∀ (i : Instr) (s t : State), exec i s = .next t →
    t.mq.size = s.mq.size
    ∨ (∃ b, i = .midiParse b ∧ b.toNat < 128 ∧ s.mpState = .awaitData2 ∧ s.mq.size.toNat < s.cfg.mqCap
        ∧ t.mq.size.toNat = s.mq.size.toNat + 1)
    ∨ (i = .midiPop ∧ t.mq.size.toNat + 1 = s.mq.size.toNat)
    ∨ (i = .sysReset ∧ t.mq.size = 0)

/-! ## The whole block -/

/-- The invariants of spec/10_state.md (the sentences marked as derived in its sections 2 to 5, with the legal values of its
table and the canonical form of the storages) are kept by every step, from every state that has them. -/
def Obligations.StepKeepsTheInvariants : Prop :=
  ∀ s t : State, BlockInv s → step s = .next t → BlockInv t

/-- After reset, with any legal parameters, the invariants hold. That reset has its ports empty and its storages unlisted is
the model's choice (notes/assumptions/2.md, 3.md, 6.md). -/
def Obligations.ResetHasTheInvariants : Prop :=
  (∀ c : Config, BlockInv (State.resetWith c)) ∧ BlockInv State.reset

/-- spec/10_state.md R49: after a reset, by power-on, by the reset input or by SYS.RESET, every register holds the value of the
reset column. -/
def Obligations.ResetValuesAreTheOnesOfTheTable : Prop :=
  RegistersAtReset State.reset
    ∧ (∀ c : Config, RegistersAtReset (State.resetWith c))
    ∧ (∀ (s t : State) (rest : List Input), s.port = .reset :: rest → step s = .next t → RegistersAtReset t)
    ∧ ∀ s t : State, exec .sysReset s = .next t → RegistersAtReset t

/-- Every command keeps every register inside its legal values, from every legal state, and answers only from one (the
sentence "Every command rule keeps every register inside its legal values" of spec/10_state.md section 1). -/
def Obligations.CommandsKeepRegistersLegal : Prop :=
  ∀ (i : Instr) (s t : State), exec i s = .next t → stateLegal s = true ∧ stateLegal t = true

/-- Once the four setters have been given, no command answers ERR(UNSET), and only a reset undoes that (boot requirements of
spec/70_reset_and_hazards.md section 2). -/
def Obligations.BootedBlockNeverAnswersUnset : Prop :=
  (∀ (s : State) (i : Instr) (t : State), Booted s → exec i s = .next t →
      t.out ≠ s.out ++ [0xB000000000000000] ∧ (i ≠ .sysReset → Booted t))
    ∧ ∀ (s : State) (ta tr sr : BitVec 24) (w : BitVec 32), stateLegal s = true → sr ≠ 0 →
        ∃ t, execAll [.envSeta ta sr, .envSetr tr sr, .oscSetsr sr, .oscSetf w] s = .next t
          ∧ Booted t ∧ RatesMatch ta tr t

/-- No command changes how another behaves: the construction-time parameters are the same after every step (the control-register
sentences of spec/10_state.md section 6). -/
def Obligations.ParametersNeverChange : Prop :=
  (∀ (i : Instr) (s t : State), exec i s = .next t → t.cfg = s.cfg) ∧ ∀ s t : State, step s = .next t → t.cfg = s.cfg

/-- A command writes registers and storage of its own unit alone; SYS.RESET is the one exception (units of
spec/00_scope.md section 1; "ENV.GATE does not touch it" of spec/42_oscillator.md). -/
def Obligations.UnitsAreIndependent : Prop :=
  ∀ (i : Instr) (s t : State), exec i s = .next t → i ≠ .sysReset →
    (unitOf i ≠ 1 → SameEnv s t) ∧ (unitOf i ≠ 2 → SameOsc s t)
      ∧ (unitOf i ≠ 3 → s.rb0 = t.rb0) ∧ (unitOf i ≠ 4 → SameMidi s t)

/-- Heads, tails and the slots outside the logical sequences are not observable. Two states that differ in
them alone stop alike, or go on to states that again differ in them alone, with the same responses (the hidden-state
paragraph of spec/10_state.md section 4). -/
def Obligations.BufferBookkeepingIsUnobservable : Prop :=
  ∀ a b : State, BlockInv a → BlockInv b → SameView a b →
    (∀ a', step a = .next a' → ∃ b', step b = .next b' ∧ SameView a' b')
    ∧ (∀ f, step a = .fault f → step b = .fault f)
    ∧ (∀ r, step a = .refused r → step b = .refused r)
end

