-- ==== Sys2Proof/WellFormed.lean ====
section
/-!
DEFINITION. What makes assembler source well formed (spec/30_encoding.md R98, R99).

An `Instr` needs no check: its operands are bit vectors of exactly the widths of R91, and every value of every operand field
decodes (R96). The checks are on source, where an operand is a number: "An operand that does not fit its field is an assembly
error, not a truncation."
-/

namespace Sys2Proof

/-- Each number fits the field of the same position, and there are as many numbers as fields. -/
def fits : List Nat → List Nat → Bool
  | [], [] => true
  | w :: ws, v :: vs => decide (v < 2 ^ w) && fits ws vs
  | [], _ :: _ => false
  | _ :: _, [] => false

/-- A source line has the operands of its mnemonic's format, each fitting its field (spec/30_encoding.md R98). -/
def SourceLine.wellFormed (l : SourceLine) : Bool := fits l.mnemonic.format.widths l.operands

/-- The operand ranges of the pseudo-commands (spec/30_encoding.md R99): whole hertz 0 to 65535, MIDI bytes 0 to 255.
DESIGN CHOICE, notes/assumptions/20.md: R99 does not say whether MIDI.FEED may have no byte; here it may, and expands to no
command. -/
def Pseudo.wellFormed : Pseudo → Bool
  | .envStepN _ => true
  | .oscStepN _ => true
  | .oscSetHz h => decide (h ≤ 65535)
  | .midiFeed bytes => bytes.all (fun b => decide (b < 256))
  | .rbDrop _ => true

end Sys2Proof
end

