-- ==== Sys2Proof/Machine/Assembler.lean ====
section
/-!
DEFINITION. The assembler text of spec/30_encoding.md R98 and the pseudo-commands of R99: from a line of characters to a
source line, and from source to commands. Not part of the block; it says what the spec's textual examples stand for.

A literal may hold digit separators (spec/00_scope.md R6). Blanks, the case of hexadecimal digits, and where in a literal a
separator may stand, are the model's choice: DESIGN CHOICE, notes/assumptions/14.md.
-/

namespace Sys2Proof.Machine

/-- A decimal digit's value. -/
def decimalDigit (c : Char) : Option Nat :=
  if '0'.toNat ≤ c.toNat ∧ c.toNat ≤ '9'.toNat then some (c.toNat - '0'.toNat) else none

/-- A hexadecimal digit's value, either case. -/
def hexDigit (c : Char) : Option Nat :=
  if 'a'.toNat ≤ c.toNat ∧ c.toNat ≤ 'f'.toNat then some (c.toNat - 'a'.toNat + 10)
  else if 'A'.toNat ≤ c.toNat ∧ c.toNat ≤ 'F'.toNat then some (c.toNat - 'A'.toNat + 10)
  else decimalDigit c

/-- One digit more at the end of a number. -/
def appendDigit (base n : Nat) (d : Option Nat) : Option Nat := d.map (fun v => n * base + v)

/-- The number that the rest of a literal makes of the digits already read. An `_` with a digit on either side separates
digits and has no value (spec/00_scope.md R6). -/
def readDigits (base : Nat) (digit : Char → Option Nat) : Nat → List Char → Option Nat
  | n, [] => some n
  | n, '_' :: c :: cs => (appendDigit base n (digit c)).bind (fun m => readDigits base digit m cs)
  | n, c :: cs => (appendDigit base n (digit c)).bind (fun m => readDigits base digit m cs)

/-- The number of a literal, which begins with a digit. -/
def readLiteral (base : Nat) (digit : Char → Option Nat) : List Char → Option Nat
  | [] => none
  | c :: cs => (digit c).bind (fun d => readDigits base digit d cs)

/-- `operand ::= decimal literal | "0x" hexadecimal literal` (spec/30_encoding.md R98). -/
def readOperand : List Char → Option Nat
  | '0' :: 'x' :: cs => readLiteral 16 hexDigit cs
  | cs => readLiteral 10 decimalDigit cs

/-- Blanks before a text. -/
def dropBlanks : List Char → List Char
  | [] => []
  | c :: cs => if c = ' ' then dropBlanks cs else c :: cs

/-- A text without the blanks around it. -/
def trimBlanks (cs : List Char) : List Char := (dropBlanks (dropBlanks cs).reverse).reverse

/-- The pieces of a text between separators, at least one. -/
def splitAtChar (sep : Char) : List Char → List (List Char)
  | [] => [[]]
  | c :: cs =>
    if c = sep then [] :: splitAtChar sep cs
    else
      match splitAtChar sep cs with
      | [] => [[c]]
      | p :: ps => (c :: p) :: ps

/-- Every operand of a line, or `none` if one is no literal. -/
def readOperands : List (List Char) → Option (List Nat)
  | [] => some []
  | p :: ps =>
    match readOperand (trimBlanks p), readOperands ps with
    | some n, some ns => some (n :: ns)
    | _, _ => none

/-- `mnemonic ::= one of the 23 names of rule R93`. -/
def readMnemonic (cs : List Char) : Option Mnemonic := mnemonics.find? (fun m => m.text.toList == cs)

/-- `line ::= mnemonic [ operand (, operand)* ] [ ; comment ]` (spec/30_encoding.md R98). -/
def readLine (cs : List Char) : Option SourceLine :=
  let text := trimBlanks (cs.takeWhile (fun c => c != ';'))
  let name := text.takeWhile (fun c => c != ' ')
  let rest := trimBlanks (text.dropWhile (fun c => c != ' '))
  match readMnemonic name with
  | none => none
  | some m =>
    match rest with
    | [] => some ⟨m, []⟩
    | c :: r =>
      match readOperands (splitAtChar ',' (c :: r)) with
      | some ns => some ⟨m, ns⟩
      | none => none

/-- The operand field of a line whose operands fit, fields from the most significant (spec/30_encoding.md R98). -/
def operandField : Format → List Nat → Nat
  | .t, [t, s] => t * 2 ^ 24 + s
  | .s, [s] => s
  | .w, [w] => w
  | .i, [i] => i
  | .b, [b] => b
  | _, _ => 0

/-- The command of a source line; `none` is an assembly error (spec/30_encoding.md R98). -/
def assemble (l : SourceLine) : Option Instr :=
  if l.wellFormed = true then
    some (l.mnemonic.instr (BitVec.ofNat 64 (operandField l.mnemonic.format l.operands)))
  else none

/-- The commands a pseudo-command stands for (spec/30_encoding.md R99); `none` where an operand is out of its range. -/
def expand (p : Pseudo) : Option (List Instr) :=
  if p.wellFormed = true then
    some
      (match p with
       | .envStepN n => List.replicate n .envStep
       | .oscStepN n => List.replicate n .oscStep
       | .oscSetHz h => [.oscSetf (BitVec.ofNat 32 (h * 65536))]
       | .midiFeed bytes => bytes.map (fun b => .midiParse (BitVec.ofNat 8 b))
       | .rbDrop n => List.replicate n .rbPop)
  else none

end Sys2Proof.Machine
end

