-- ==== Sys2Proof/Laws/Assembler.lean ====
section
/-!
SUPPORT. What reading a literal does: a digit joins the number, a separator before a digit changes nothing (spec/00_scope.md R6).
-/

namespace Sys2Proof.Laws

open Sys2Proof Sys2Proof.Machine

/-- Neither literal form has the separator among its digits. -/
@[simp] theorem decimalDigit_separator : decimalDigit '_' = none := by decide

@[simp] theorem hexDigit_separator : hexDigit '_' = none := by decide

/-- A character that is no separator is read as a digit. -/
theorem readDigits_digit {base n : Nat} {digit : Char → Option Nat} {c : Char} {cs : List Char} (hc : c ≠ '_') :
    readDigits base digit n (c :: cs) = (appendDigit base n (digit c)).bind (fun m => readDigits base digit m cs) := by
  rw [readDigits]
  intro d ds h
  exact absurd h hc

/-- A separator before a character that is none has no effect: the literal without it reads the same. -/
theorem readDigits_separator {base n : Nat} {digit : Char → Option Nat} {c : Char} {cs : List Char} (hc : c ≠ '_') :
    readDigits base digit n ('_' :: c :: cs) = readDigits base digit n (c :: cs) := by
  rw [readDigits, readDigits_digit hc]

end Sys2Proof.Laws
end

