-- ==== Sys2Proof/Laws/Memory.lean ====
section
/-!
SUPPORT. The storage: a read after a write, and the canonical form every operation keeps.
-/

namespace Sys2Proof.Machine

variable {w : Nat}

/-- A written slot holds what was written. -/
@[simp] theorem memLookup_memWrite_same (m : Memory w) (i : Nat) (v : BitVec w) :
    memLookup (memWrite m i v) i = some v := by
  induction m with
  | nil => simp [memWrite, memLookup]
  | cons e rest ih =>
    obtain ⟨a, u⟩ := e
    unfold memWrite
    split
    · simp [memLookup]
    · split
      · simp [memLookup]
      · rename_i h
        simp [memLookup, h, ih]

/-- A write leaves every other slot alone. -/
theorem memLookup_memWrite_other (m : Memory w) (i j : Nat) (v : BitVec w) (h : j ≠ i) :
    memLookup (memWrite m i v) j = memLookup m j := by
  have h' : ¬ i = j := fun e => h e.symm
  induction m with
  | nil => simp [memWrite, memLookup, h']
  | cons e rest ih =>
    obtain ⟨a, u⟩ := e
    unfold memWrite
    split
    · simp [memLookup, h']
    · split
      · rename_i ha
        subst ha
        simp [memLookup, h']
      · simp [memLookup, ih]

/-- Reading a written slot gives what was written (spec/20_memory.md R62). -/
@[simp] theorem memRead_memWrite_same (p : Nat → BitVec w) (m : Memory w) (i : Nat) (v : BitVec w) :
    memRead p (memWrite m i v) i = v := by simp [memRead]

/-- Reading any other slot gives what it gave before. -/
theorem memRead_memWrite_other (p : Nat → BitVec w) (m : Memory w) (i j : Nat) (v : BitVec w) (h : j ≠ i) :
    memRead p (memWrite m i v) j = memRead p m j := by simp [memRead, memLookup_memWrite_other m i j v h]

/-- A slot is listed after a write exactly when it was listed or is the one written. -/
theorem mem_memWrite {m : Memory w} {i : Nat} {v : BitVec w} {e : Nat × BitVec w} (h : e ∈ memWrite m i v) :
    e ∈ m ∨ e = (i, v) := by
  induction m with
  | nil => simpa [memWrite] using h
  | cons x rest ih =>
    obtain ⟨a, u⟩ := x
    unfold memWrite at h
    split at h
    · simp only [List.mem_cons] at h ⊢
      tauto
    · split at h
      · simp only [List.mem_cons] at h ⊢
        tauto
      · simp only [List.mem_cons] at h ⊢
        rcases h with h | h
        · tauto
        · rcases ih h with h | h <;> tauto

/-- A write keeps the canonical form. -/
theorem memWrite_wf {m : Memory w} (i : Nat) (v : BitVec w) (h : Memory.wf m) : Memory.wf (memWrite m i v) := by
  induction m with
  | nil => simp [memWrite, Memory.wf]
  | cons x rest ih =>
    obtain ⟨a, u⟩ := x
    have hr : Memory.wf rest := (List.pairwise_cons.mp h).2
    have ha : ∀ e ∈ rest, a < e.1 := (List.pairwise_cons.mp h).1
    unfold memWrite
    split
    · rename_i hia
      refine List.pairwise_cons.mpr ⟨?_, h⟩
      intro e he
      rcases List.mem_cons.mp he with rfl | he
      · exact hia
      · exact Nat.lt_trans hia (ha e he)
    · rename_i hia
      split
      · rename_i e
        subst e
        exact List.pairwise_cons.mpr ⟨ha, hr⟩
      · rename_i hne
        refine List.pairwise_cons.mpr ⟨?_, ih hr⟩
        intro e he
        rcases mem_memWrite he with he | rfl
        · exact ha e he
        · show a < i
          omega

/-- A write to an existing slot lists existing slots only. -/
theorem memWrite_within {m : Memory w} {cap i : Nat} (v : BitVec w) (hi : i < cap) (h : Memory.within cap m) :
    Memory.within cap (memWrite m i v) := by
  intro e he
  rcases mem_memWrite he with he | rfl
  · exact h e he
  · exact hi

/-- Right after power-on the storages have the canonical form. -/
theorem resetWith_slots_wf (c : Config) :
    Memory.wf (State.resetWith c).rb0.slots ∧ Memory.wf (State.resetWith c).mq.slots :=
  ⟨List.Pairwise.nil, List.Pairwise.nil⟩

end Sys2Proof.Machine
end

