-- ==== Sys2Proof/Laws/State.lean ====
section
/-!
SUPPORT. One lemma per field per update of the state, and of a buffer, each true by `rfl`.
-/

namespace Sys2Proof.Machine

/-! ## `respond` writes the response port alone -/

@[simp] theorem respond_envPhase (r : Response) (s : State) : (respond r s).envPhase = s.envPhase := rfl
@[simp] theorem respond_envOut (r : Response) (s : State) : (respond r s).envOut = s.envOut := rfl
@[simp] theorem respond_envArate (r : Response) (s : State) : (respond r s).envArate = s.envArate := rfl
@[simp] theorem respond_envRrate (r : Response) (s : State) : (respond r s).envRrate = s.envRrate := rfl
@[simp] theorem respond_oscPhase (r : Response) (s : State) : (respond r s).oscPhase = s.oscPhase := rfl
@[simp] theorem respond_oscSr (r : Response) (s : State) : (respond r s).oscSr = s.oscSr := rfl
@[simp] theorem respond_oscFreq (r : Response) (s : State) : (respond r s).oscFreq = s.oscFreq := rfl
@[simp] theorem respond_oscDelta (r : Response) (s : State) : (respond r s).oscDelta = s.oscDelta := rfl
@[simp] theorem respond_rb0 (r : Response) (s : State) : (respond r s).rb0 = s.rb0 := rfl
@[simp] theorem respond_mpState (r : Response) (s : State) : (respond r s).mpState = s.mpState := rfl
@[simp] theorem respond_mpStatus (r : Response) (s : State) : (respond r s).mpStatus = s.mpStatus := rfl
@[simp] theorem respond_mpData1 (r : Response) (s : State) : (respond r s).mpData1 = s.mpData1 := rfl
@[simp] theorem respond_mq (r : Response) (s : State) : (respond r s).mq = s.mq := rfl
@[simp] theorem respond_cfg (r : Response) (s : State) : (respond r s).cfg = s.cfg := rfl
@[simp] theorem respond_port (r : Response) (s : State) : (respond r s).port = s.port := rfl
@[simp] theorem respond_out (r : Response) (s : State) : (respond r s).out = s.out ++ [responseWord r] := rfl

/-! ## `raise` writes the response port alone -/

@[simp] theorem raise_envPhase (e : ErrorCode) (s : State) : (raise e s).envPhase = s.envPhase := rfl
@[simp] theorem raise_envOut (e : ErrorCode) (s : State) : (raise e s).envOut = s.envOut := rfl
@[simp] theorem raise_envArate (e : ErrorCode) (s : State) : (raise e s).envArate = s.envArate := rfl
@[simp] theorem raise_envRrate (e : ErrorCode) (s : State) : (raise e s).envRrate = s.envRrate := rfl
@[simp] theorem raise_oscPhase (e : ErrorCode) (s : State) : (raise e s).oscPhase = s.oscPhase := rfl
@[simp] theorem raise_oscSr (e : ErrorCode) (s : State) : (raise e s).oscSr = s.oscSr := rfl
@[simp] theorem raise_oscFreq (e : ErrorCode) (s : State) : (raise e s).oscFreq = s.oscFreq := rfl
@[simp] theorem raise_oscDelta (e : ErrorCode) (s : State) : (raise e s).oscDelta = s.oscDelta := rfl
@[simp] theorem raise_rb0 (e : ErrorCode) (s : State) : (raise e s).rb0 = s.rb0 := rfl
@[simp] theorem raise_mpState (e : ErrorCode) (s : State) : (raise e s).mpState = s.mpState := rfl
@[simp] theorem raise_mpStatus (e : ErrorCode) (s : State) : (raise e s).mpStatus = s.mpStatus := rfl
@[simp] theorem raise_mpData1 (e : ErrorCode) (s : State) : (raise e s).mpData1 = s.mpData1 := rfl
@[simp] theorem raise_mq (e : ErrorCode) (s : State) : (raise e s).mq = s.mq := rfl
@[simp] theorem raise_cfg (e : ErrorCode) (s : State) : (raise e s).cfg = s.cfg := rfl
@[simp] theorem raise_port (e : ErrorCode) (s : State) : (raise e s).port = s.port := rfl
@[simp] theorem raise_out (e : ErrorCode) (s : State) : (raise e s).out = s.out ++ [responseWord (.err e)] := rfl

/-! ## `withPort` writes the command port alone -/

@[simp] theorem withPort_envPhase (p : List Input) (s : State) : (withPort p s).envPhase = s.envPhase := rfl
@[simp] theorem withPort_envOut (p : List Input) (s : State) : (withPort p s).envOut = s.envOut := rfl
@[simp] theorem withPort_envArate (p : List Input) (s : State) : (withPort p s).envArate = s.envArate := rfl
@[simp] theorem withPort_envRrate (p : List Input) (s : State) : (withPort p s).envRrate = s.envRrate := rfl
@[simp] theorem withPort_oscPhase (p : List Input) (s : State) : (withPort p s).oscPhase = s.oscPhase := rfl
@[simp] theorem withPort_oscSr (p : List Input) (s : State) : (withPort p s).oscSr = s.oscSr := rfl
@[simp] theorem withPort_oscFreq (p : List Input) (s : State) : (withPort p s).oscFreq = s.oscFreq := rfl
@[simp] theorem withPort_oscDelta (p : List Input) (s : State) : (withPort p s).oscDelta = s.oscDelta := rfl
@[simp] theorem withPort_rb0 (p : List Input) (s : State) : (withPort p s).rb0 = s.rb0 := rfl
@[simp] theorem withPort_mpState (p : List Input) (s : State) : (withPort p s).mpState = s.mpState := rfl
@[simp] theorem withPort_mpStatus (p : List Input) (s : State) : (withPort p s).mpStatus = s.mpStatus := rfl
@[simp] theorem withPort_mpData1 (p : List Input) (s : State) : (withPort p s).mpData1 = s.mpData1 := rfl
@[simp] theorem withPort_mq (p : List Input) (s : State) : (withPort p s).mq = s.mq := rfl
@[simp] theorem withPort_cfg (p : List Input) (s : State) : (withPort p s).cfg = s.cfg := rfl
@[simp] theorem withPort_port (p : List Input) (s : State) : (withPort p s).port = p := rfl
@[simp] theorem withPort_out (p : List Input) (s : State) : (withPort p s).out = s.out := rfl

/-! ## `clearRegisters` writes every register (spec/70_reset_and_hazards.md R280) -/

@[simp] theorem clearRegisters_envPhase (s : State) : (clearRegisters s).envPhase = .idle := rfl
@[simp] theorem clearRegisters_envOut (s : State) : (clearRegisters s).envOut = 0 := rfl
@[simp] theorem clearRegisters_envArate (s : State) : (clearRegisters s).envArate = none := rfl
@[simp] theorem clearRegisters_envRrate (s : State) : (clearRegisters s).envRrate = none := rfl
@[simp] theorem clearRegisters_oscPhase (s : State) : (clearRegisters s).oscPhase = 0 := rfl
@[simp] theorem clearRegisters_oscSr (s : State) : (clearRegisters s).oscSr = none := rfl
@[simp] theorem clearRegisters_oscFreq (s : State) : (clearRegisters s).oscFreq = none := rfl
@[simp] theorem clearRegisters_oscDelta (s : State) : (clearRegisters s).oscDelta = none := rfl
@[simp] theorem clearRegisters_rb0 (s : State) : (clearRegisters s).rb0 = ringClear s.rb0 := rfl
@[simp] theorem clearRegisters_mpState (s : State) : (clearRegisters s).mpState = .awaitStatus := rfl
@[simp] theorem clearRegisters_mpStatus (s : State) : (clearRegisters s).mpStatus = 0 := rfl
@[simp] theorem clearRegisters_mpData1 (s : State) : (clearRegisters s).mpData1 = 0 := rfl
@[simp] theorem clearRegisters_mq (s : State) : (clearRegisters s).mq = ringClear s.mq := rfl
@[simp] theorem clearRegisters_cfg (s : State) : (clearRegisters s).cfg = s.cfg := rfl
@[simp] theorem clearRegisters_port (s : State) : (clearRegisters s).port = s.port := rfl
@[simp] theorem clearRegisters_out (s : State) : (clearRegisters s).out = s.out := rfl

/-! ## Buffers -/

variable {w : Nat}

@[simp] theorem ringClear_head (r : RingBuf w) : (ringClear r).head = 0 := rfl
@[simp] theorem ringClear_tail (r : RingBuf w) : (ringClear r).tail = 0 := rfl
@[simp] theorem ringClear_size (r : RingBuf w) : (ringClear r).size = 0 := rfl
@[simp] theorem ringClear_slots (r : RingBuf w) : (ringClear r).slots = r.slots := rfl
@[simp] theorem ringEvict_head (cap : Nat) (r : RingBuf w) : (ringEvict cap r).head = advance cap r.head := rfl
@[simp] theorem ringEvict_tail (cap : Nat) (r : RingBuf w) : (ringEvict cap r).tail = r.tail := rfl
@[simp] theorem ringEvict_size (cap : Nat) (r : RingBuf w) : (ringEvict cap r).size = BitVec.ofNat 16 (r.size.toNat - 1) := rfl
@[simp] theorem ringEvict_slots (cap : Nat) (r : RingBuf w) : (ringEvict cap r).slots = r.slots := rfl
@[simp] theorem ringAppend_head (cap : Nat) (x : BitVec w) (r : RingBuf w) : (ringAppend cap x r).head = r.head := rfl
@[simp] theorem ringAppend_tail (cap : Nat) (x : BitVec w) (r : RingBuf w) : (ringAppend cap x r).tail = advance cap r.tail := rfl
@[simp] theorem ringAppend_size (cap : Nat) (x : BitVec w) (r : RingBuf w) : (ringAppend cap x r).size = BitVec.ofNat 16 (r.size.toNat + 1) := rfl
@[simp] theorem ringAppend_slots (cap : Nat) (x : BitVec w) (r : RingBuf w) : (ringAppend cap x r).slots = memWrite r.slots r.tail.toNat x := rfl

end Sys2Proof.Machine
end

