-- ==== Sys2Proof/Laws/Ops.lean ====
section
/-!
SUPPORT. What each shared operation can do, said once.
-/

namespace Sys2Proof.Machine

variable {w : Nat}

/-! ## Configuration -/

/-- What a legal configuration is (spec/00_scope.md R5). -/
theorem config_ranges (c : Config) :
    1 ≤ c.lutAw ∧ c.lutAw ≤ 16 ∧ c.lutInit.length = 2 ^ c.lutAw ∧ (∀ v ∈ c.lutInit, -SONE ≤ v ∧ v ≤ SONE)
      ∧ 1 ≤ c.rb0Cap ∧ c.rb0Cap ≤ 65535 ∧ 1 ≤ c.mqCap ∧ c.mqCap ≤ 65535 := by
  have h := c.legal
  simp only [RawConfig.legal, Bool.and_eq_true, decide_eq_true_eq, List.all_eq_true] at h
  obtain ⟨⟨⟨⟨⟨⟨⟨h1, h2⟩, h3⟩, h4⟩, h5⟩, h6⟩, h7⟩, h8⟩ := h
  exact ⟨h1, h2, h3, h4, h5, h6, h7, h8⟩

/-- The RB0 capacity is positive and fits its registers. -/
theorem rb0Cap_range (c : Config) : 1 ≤ c.rb0Cap ∧ c.rb0Cap ≤ 65535 :=
  ⟨(config_ranges c).2.2.2.2.1, (config_ranges c).2.2.2.2.2.1⟩

/-- The MQ capacity is positive and fits its registers. -/
theorem mqCap_range (c : Config) : 1 ≤ c.mqCap ∧ c.mqCap ≤ 65535 :=
  ⟨(config_ranges c).2.2.2.2.2.2.1, (config_ranges c).2.2.2.2.2.2.2⟩

/-! ## The legal-state check -/

/-- A guarded step answers next only from a legal state, and then what it guards. -/
theorem whenLegal_eq_next {s t : State} {o : StepResult} (h : whenLegal s o = .next t) :
    stateLegal s = true ∧ o = .next t := by
  unfold whenLegal at h
  split at h
  · exact ⟨‹_›, h⟩
  · cases h

/-- A guarded step faults only from a legal state. -/
theorem whenLegal_eq_fault {s : State} {f : Fault} {o : StepResult} (h : whenLegal s o = .fault f) :
    stateLegal s = true ∧ o = .fault f := by
  unfold whenLegal at h
  split at h
  · exact ⟨‹_›, h⟩
  · cases h

/-- From a legal state the guard is not seen. -/
theorem whenLegal_of_legal {s : State} (o : StepResult) (h : stateLegal s = true) : whenLegal s o = o := by
  simp [whenLegal, h]

/-- From any other state the step is refused (spec/10_state.md R21). -/
theorem whenLegal_of_illegal {s : State} (o : StepResult) (h : stateLegal s = false) :
    whenLegal s o = .refused .illegalState := by
  simp [whenLegal, h]

/-- The registers of a buffer are in range. -/
theorem ringLegal_iff {cap : Nat} {r : RingBuf w} :
    ringLegal cap r = true ↔ r.head.toNat < cap ∧ r.tail.toNat < cap ∧ r.size.toNat ≤ cap := by
  simp [ringLegal, and_assoc]

/-- What a legal state is, register by register (spec/10_state.md R20). -/
theorem stateLegal_iff {s : State} :
    stateLegal s = true ↔
      s.envOut.toNat ≤ ONE ∧ rateLegal s.envArate = true ∧ rateLegal s.envRrate = true ∧ srLegal s.oscSr = true
        ∧ ringLegal s.cfg.rb0Cap s.rb0 = true ∧ statusLegal s.mpState s.mpStatus = true
        ∧ ringLegal s.cfg.mqCap s.mq = true := by
  simp [stateLegal, and_assoc]

/-- A set rate is in 1 .. ONE. -/
theorem rateLegal_some {r : BitVec 32} : rateLegal (some r) = true ↔ 1 ≤ r.toNat ∧ r.toNat ≤ ONE := by
  simp [rateLegal]
  omega

/-- The response port is no register. -/
@[simp] theorem stateLegal_respond (r : Response) (s : State) : stateLegal (respond r s) = stateLegal s := rfl

/-- Neither is the command port. -/
@[simp] theorem stateLegal_withPort (p : List Input) (s : State) : stateLegal (withPort p s) = stateLegal s := rfl

/-! ## Heads and tails -/

/-- A position moved on stays below the capacity, and no bit is lost. -/
theorem advance_toNat {cap : Nat} (p : BitVec 16) (h : 1 ≤ cap) (h' : cap ≤ 65535) :
    (advance cap p).toNat = (p.toNat + 1) % cap := by
  have hlt : (p.toNat + 1) % cap < cap := Nat.mod_lt _ h
  simp only [advance, BitVec.toNat_ofNat]
  exact Nat.mod_eq_of_lt (by omega)

/-! ## rb_push and rb_pop, by case (spec/43_ringbuffer.md R191, R192) -/

/-- With room, a push appends. -/
theorem ringPush_of_room {cap : Nat} {p : Policy} {x : BitVec w} {r : RingBuf w} (h : r.size.toNat ≠ cap) :
    ringPush cap p x r = ringAppend cap x r := by
  simp [ringPush, h]

/-- Full under DISCARD, a push does nothing. -/
theorem ringPush_full_discard {cap : Nat} {x : BitVec w} {r : RingBuf w} (h : r.size.toNat = cap) :
    ringPush cap .discard x r = r := by
  simp [ringPush, h]

/-- Full under OVERWRITE, a push evicts and appends. -/
theorem ringPush_full_overwrite {cap : Nat} {x : BitVec w} {r : RingBuf w} (h : r.size.toNat = cap) :
    ringPush cap .overwrite x r = ringAppend cap x (ringEvict cap r) := by
  simp [ringPush, h]

/-- A pop of an empty buffer gives nothing. -/
theorem ringPop_empty {cap : Nat} {p : Nat → BitVec w} {r : RingBuf w} (h : r.size.toNat = 0) : ringPop cap p r = none := by
  simp [ringPop, h]

/-- A pop of any other gives the element at the head. -/
theorem ringPop_nonempty {cap : Nat} {p : Nat → BitVec w} {r : RingBuf w} (h : r.size.toNat ≠ 0) :
    ringPop cap p r = some (memRead p r.slots r.head.toNat, ringEvict cap r) := by
  unfold ringPop
  exact if_neg h

/-- The logical sequence has `size` elements. -/
@[simp] theorem ringSeq_length (cap : Nat) (p : Nat → BitVec w) (r : RingBuf w) :
    (ringSeq cap p r).length = r.size.toNat := by
  simp [ringSeq]

/-! ## Ports -/

/-- A presented word is the next thing the step accepts. -/
@[simp] theorem presentWord_port (c : CmdWord) (s : State) : (presentWord c s).port = .command c :: s.port := rfl

/-- Presenting a word writes the command port alone. -/
theorem withPort_presentWord (c : CmdWord) (s : State) : withPort s.port (presentWord c s) = s := rfl

end Sys2Proof.Machine
end

