-- ==== Sys2Proof/Laws/Exec.lean ====
section
/-!
SUPPORT. What any command does when it completes, said once: from a legal state, inside the one index bound, it answers next
with its effect. Proofs over all commands case on `i` and unfold `commandEffect`, not `exec`.
-/

namespace Sys2Proof.Machine

/-- The next state of a command that completes. -/
def commandEffect (i : Instr) (s : State) : State :=
  match i with
  | .sysNop => respond .ok s
  | .sysReset => respond .ok (clearRegisters s)
  | .envStep => envelopeStep s
  | .envGate => respond .ok { s with envPhase := .attack }
  | .envSeta t sr => if sr = 0 then raise .badOperand s else respond .ok { s with envArate := some (rateRegister t sr) }
  | .envSetr t sr => if sr = 0 then raise .badOperand s else respond .ok { s with envRrate := some (rateRegister t sr) }
  | .envStat => respondEnv s
  | .envRda => respondRegister s.envArate s
  | .envRdr => respondRegister s.envRrate s
  | .oscStep => oscillatorStep s
  | .oscSetsr sr =>
    if sr = 0 then raise .badOperand s
    else
      respond .ok
        { s with
          oscSr := some sr
          oscDelta :=
            match s.oscFreq with
            | some f => some (deltaRegister f sr)
            | none => s.oscDelta }
  | .oscSetf w =>
    respond .ok
      { s with
        oscFreq := some w
        oscDelta :=
          match s.oscSr with
          | some sr => some (deltaRegister w sr)
          | none => s.oscDelta }
  | .oscStat => respond (.okd (s.oscPhase.setWidth 48)) s
  | .oscRdd => respondRegister s.oscDelta s
  | .rbPush w => respond .ok { s with rb0 := ringPush s.cfg.rb0Cap s.cfg.rb0Policy w s.rb0 }
  | .rbPop =>
    match ringPop s.cfg.rb0Cap Config.rb0PowerOn s.rb0 with
    | none => respond .ok s
    | some (x, r) => respond (.okd (x.setWidth 48)) { s with rb0 := r }
  | .rbAt idx => respond (.okd ((ringAt s.cfg.rb0Cap Config.rb0PowerOn s.rb0 idx.toNat).setWidth 48)) s
  | .rbClear => respond .ok { s with rb0 := ringClear s.rb0 }
  | .rbSize => respond (.okd (s.rb0.size.setWidth 48)) s
  | .midiParse b => respond .ok (parseByte b s)
  | .midiAvail => respond (.okd (if 0 < s.mq.size.toNat then 1 else 0)) s
  | .midiPop =>
    match ringPop s.cfg.mqCap Config.mqPowerOn s.mq with
    | none => respond .ok s
    | some (n, r) => respond (.okd (n.setWidth 48)) { s with mq := r }
  | .midiStat => respond (.okd (midiData s)) s

/-- A command other than RB.AT completes from every legal state. -/
theorem exec_eq_effect (i : Instr) (s : State) (h : ∀ idx, i ≠ .rbAt idx) :
    exec i s = whenLegal s (.next (commandEffect i s)) := by
  cases i
  case rbAt idx => exact absurd rfl (h idx)
  all_goals rfl

/-- RB.AT completes below the logical size and faults at or beyond it. -/
theorem exec_rbAt_eq (idx : BitVec 16) (s : State) :
    exec (.rbAt idx) s =
      whenLegal s
        (if idx.toNat < s.rb0.size.toNat then .next (commandEffect (.rbAt idx) s) else .fault .rbAtBeyondSize) := rfl

/-- All a command can do when it answers next. -/
theorem exec_eq_next {i : Instr} {s t : State} (h : exec i s = .next t) :
    stateLegal s = true ∧ IndexWithinSize i s ∧ t = commandEffect i s := by
  by_cases hi : ∃ idx, i = .rbAt idx
  · obtain ⟨idx, rfl⟩ := hi
    rw [exec_rbAt_eq] at h
    obtain ⟨hl, h⟩ := whenLegal_eq_next h
    split at h
    · rename_i hlt
      exact ⟨hl, hlt, (Host.Outcome.next.inj h).symm⟩
    · cases h
  · rw [exec_eq_effect i s (fun idx e => hi ⟨idx, e⟩)] at h
    obtain ⟨hl, h⟩ := whenLegal_eq_next h
    refine ⟨hl, ?_, (Host.Outcome.next.inj h).symm⟩
    cases i <;> first | trivial | exact absurd ⟨_, rfl⟩ hi

/-- From a legal state, inside the index bound, a command answers next with its effect. -/
theorem exec_of_legal {i : Instr} {s : State} (hl : stateLegal s = true) (hi : IndexWithinSize i s) :
    exec i s = .next (commandEffect i s) := by
  by_cases h : ∃ idx, i = .rbAt idx
  · obtain ⟨idx, rfl⟩ := h
    rw [exec_rbAt_eq, whenLegal_of_legal _ hl]
    exact if_pos hi
  · rw [exec_eq_effect i s (fun idx e => h ⟨idx, e⟩), whenLegal_of_legal _ hl]

/-- One step more of a run. -/
theorem run_succ_of_next (k : Nat) {s t : State} (h : step s = .next t) :
    Host.Core.run Sys2Proof.core (k + 1) s = Host.Core.run Sys2Proof.core k t := by
  have h' : Sys2Proof.core.step s = .next t := h
  simp only [Host.Core.run, h']

end Sys2Proof.Machine
end

