-- ==== Sys2Proof/Laws/PerInstr.lean ====
section
/-!
SUPPORT. Statements about every command as syntax, one lemma per constructor of Instr.
-/

/-- The word of a command is in its row of the opcode map: `(w AND mask) = match` (spec/30_encoding.md R93). -/
def Sys2Proof.Laws.RowOfWord.Statement (i : Sys2Proof.Instr) : Prop :=
  ∃ row ∈ Sys2Proof.opcodeTable,
    row.mnemonic = i.mnemonic ∧ Sys2Proof.encode i &&& row.mask = row.pattern

namespace Sys2Proof.Laws

/-- A narrow operand lies under none of its format's must-be-zero bits. -/
theorem setWidth_and_eq_zero {k : Nat} (x : BitVec k) (m : BitVec 48) (h : ∀ j < k, m.getLsbD j = false) :
    x.setWidth 48 &&& m = 0 := by
  apply BitVec.eq_of_getLsbD_eq
  intro j hj
  rcases Nat.lt_or_ge j k with hk | hk
  · simp [h j hk]
  · simp [BitVec.getLsbD_of_ge x j hk]

/-- Under a row's mask an opcode byte with an operand field leaves the opcode, when the operand has no must-be-zero bit. -/
theorem word_and_mask (op : BitVec 8) (x m : BitVec 48) (h : x &&& m = 0) :
    ((op.setWidth 64 <<< 56) ||| x.setWidth 64) &&& ((0xFFFF#64 <<< 48) ||| m.setWidth 64) = op.setWidth 64 <<< 56 := by
  have hx : x.setWidth 64 &&& m.setWidth 64 = 0 := by rw [← BitVec.setWidth_and, h]; rfl
  have ho : (op.setWidth 64 <<< 56) &&& (0xFFFF#64 <<< 48) = op.setWidth 64 <<< 56 := by
    apply BitVec.eq_of_getLsbD_eq
    intro k hk
    by_cases h56 : k < 56
    · simp [h56]
    · have : (0xFFFF#64 <<< 48).getLsbD k = true := by
        revert h56; revert hk; revert k; decide
      rw [BitVec.getLsbD_and, this, Bool.and_true]
  have hm : (op.setWidth 64 <<< 56) &&& m.setWidth 64 = 0 := by
    apply BitVec.eq_of_getLsbD_eq
    intro k hk
    by_cases h56 : k < 56
    · simp [h56]
    · simp [BitVec.getLsbD_of_ge m k (by omega)]
  have hn : x.setWidth 64 &&& (0xFFFF#64 <<< 48) = 0 := by
    apply BitVec.eq_of_getLsbD_eq
    intro k hk
    by_cases h48 : k < 48
    · have : (0xFFFF#64 <<< 48).getLsbD k = false := by
        revert h48; revert hk; revert k; decide
      rw [BitVec.getLsbD_and, this, Bool.and_false]
      simp
    · simp [BitVec.getLsbD_of_ge x k (by omega)]
  rw [BitVec.and_or_distrib_left, BitVec.and_or_distrib_right, BitVec.and_or_distrib_right, ho, hn, hm, hx]
  simp

/-- A command is in its row when masking its operand field leaves nothing. -/
theorem rowOfWord_of_opnd (i : Instr) (row : OpcodeRow) (hrow : row ∈ opcodeTable) (hm : row.mnemonic = i.mnemonic)
    (m : BitVec 48) (hmask : row.mask = (0xFFFF#64 <<< 48) ||| m.setWidth 64)
    (hpat : row.pattern = row.mnemonic.opcode.setWidth 64 <<< 56) (ho : i.opnd &&& m = 0) : RowOfWord.Statement i :=
  ⟨row, hrow, hm, by rw [hmask, hpat, hm]; exact word_and_mask _ _ _ ho⟩

theorem RowOfWord.sysNop : RowOfWord.Statement .sysNop :=
  ⟨opcodeTable[0], by decide, rfl, by decide⟩

theorem RowOfWord.sysReset : RowOfWord.Statement .sysReset :=
  ⟨opcodeTable[1], by decide, rfl, by decide⟩

theorem RowOfWord.envStep : RowOfWord.Statement .envStep :=
  ⟨opcodeTable[2], by decide, rfl, by decide⟩

theorem RowOfWord.envGate : RowOfWord.Statement .envGate :=
  ⟨opcodeTable[3], by decide, rfl, by decide⟩

theorem RowOfWord.envSeta (t sr : BitVec 24) : RowOfWord.Statement (.envSeta t sr) :=
  rowOfWord_of_opnd _ (opcodeTable[4]) (by decide) rfl (Format.mustBeZero .t) (by decide) (by decide) BitVec.and_zero

theorem RowOfWord.envSetr (t sr : BitVec 24) : RowOfWord.Statement (.envSetr t sr) :=
  rowOfWord_of_opnd _ (opcodeTable[5]) (by decide) rfl (Format.mustBeZero .t) (by decide) (by decide) BitVec.and_zero

theorem RowOfWord.envStat : RowOfWord.Statement .envStat :=
  ⟨opcodeTable[6], by decide, rfl, by decide⟩

theorem RowOfWord.envRda : RowOfWord.Statement .envRda :=
  ⟨opcodeTable[7], by decide, rfl, by decide⟩

theorem RowOfWord.envRdr : RowOfWord.Statement .envRdr :=
  ⟨opcodeTable[8], by decide, rfl, by decide⟩

theorem RowOfWord.oscStep : RowOfWord.Statement .oscStep :=
  ⟨opcodeTable[9], by decide, rfl, by decide⟩

theorem RowOfWord.oscSetsr (sr : BitVec 24) : RowOfWord.Statement (.oscSetsr sr) :=
  rowOfWord_of_opnd _ (opcodeTable[10]) (by decide) rfl (Format.mustBeZero .s) (by decide) (by decide)
    (setWidth_and_eq_zero sr _ (by decide))

theorem RowOfWord.oscSetf (w : BitVec 32) : RowOfWord.Statement (.oscSetf w) :=
  rowOfWord_of_opnd _ (opcodeTable[11]) (by decide) rfl (Format.mustBeZero .w) (by decide) (by decide)
    (setWidth_and_eq_zero w _ (by decide))

theorem RowOfWord.oscStat : RowOfWord.Statement .oscStat :=
  ⟨opcodeTable[12], by decide, rfl, by decide⟩

theorem RowOfWord.oscRdd : RowOfWord.Statement .oscRdd :=
  ⟨opcodeTable[13], by decide, rfl, by decide⟩

theorem RowOfWord.rbPush (w : BitVec 32) : RowOfWord.Statement (.rbPush w) :=
  rowOfWord_of_opnd _ (opcodeTable[14]) (by decide) rfl (Format.mustBeZero .w) (by decide) (by decide)
    (setWidth_and_eq_zero w _ (by decide))

theorem RowOfWord.rbPop : RowOfWord.Statement .rbPop :=
  ⟨opcodeTable[15], by decide, rfl, by decide⟩

theorem RowOfWord.rbAt (idx : BitVec 16) : RowOfWord.Statement (.rbAt idx) :=
  rowOfWord_of_opnd _ (opcodeTable[16]) (by decide) rfl (Format.mustBeZero .i) (by decide) (by decide)
    (setWidth_and_eq_zero idx _ (by decide))

theorem RowOfWord.rbClear : RowOfWord.Statement .rbClear :=
  ⟨opcodeTable[17], by decide, rfl, by decide⟩

theorem RowOfWord.rbSize : RowOfWord.Statement .rbSize :=
  ⟨opcodeTable[18], by decide, rfl, by decide⟩

theorem RowOfWord.midiParse (b : BitVec 8) : RowOfWord.Statement (.midiParse b) :=
  rowOfWord_of_opnd _ (opcodeTable[19]) (by decide) rfl (Format.mustBeZero .b) (by decide) (by decide)
    (setWidth_and_eq_zero b _ (by decide))

theorem RowOfWord.midiAvail : RowOfWord.Statement .midiAvail :=
  ⟨opcodeTable[20], by decide, rfl, by decide⟩

theorem RowOfWord.midiPop : RowOfWord.Statement .midiPop :=
  ⟨opcodeTable[21], by decide, rfl, by decide⟩

theorem RowOfWord.midiStat : RowOfWord.Statement .midiStat :=
  ⟨opcodeTable[22], by decide, rfl, by decide⟩

end Sys2Proof.Laws
end

