-- ==== Sys2Proof/Laws/Ring.lean ====
section
/-!
SUPPORT. The ring buffers: what an append and an eviction do to the logical sequence, and that both keep the buffer's
invariant. Pushes, pops and clears are these two and `ringClear`.
-/

namespace Sys2Proof.Machine

variable {w : Nat}

/-- A size below the capacity, one more. -/
theorem size_succ_toNat {cap : Nat} {r : RingBuf w} (h : r.size.toNat < cap) (hc : cap ≤ 65535) :
    (BitVec.ofNat 16 (r.size.toNat + 1)).toNat = r.size.toNat + 1 := by
  simp only [BitVec.toNat_ofNat]
  omega

/-- A size, one less. -/
theorem size_pred_toNat (r : RingBuf w) : (BitVec.ofNat 16 (r.size.toNat - 1)).toNat = r.size.toNat - 1 := by
  have := r.size.isLt
  simp only [BitVec.toNat_ofNat]
  omega

/-- Different logical indices below the capacity have different slots. -/
theorem slot_ne {cap h i n : Nat} (hi : i < n) (hn : n < cap) : (h + i) % cap ≠ (h + n) % cap := by
  intro e
  have e' : i % cap = n % cap := Nat.ModEq.add_left_cancel' h e
  rw [Nat.mod_eq_of_lt (by omega), Nat.mod_eq_of_lt hn] at e'
  omega

/-- After an eviction logical index `i` is what was logical index `i + 1`. -/
theorem slotOf_ringEvict {cap : Nat} (r : RingBuf w) (i : Nat) (h : 1 ≤ cap) (h' : cap ≤ 65535) :
    slotOf cap (ringEvict cap r) i = slotOf cap r (i + 1) := by
  simp only [slotOf, ringEvict, advance_toNat _ h h', Nat.mod_add_mod]
  congr 1
  omega

/-- An eviction drops the oldest element (spec/43_ringbuffer.md R192). -/
theorem ringSeq_ringEvict {cap : Nat} (p : Nat → BitVec w) (r : RingBuf w) (h : 1 ≤ cap) (h' : cap ≤ 65535) :
    ringSeq cap p (ringEvict cap r) = (ringSeq cap p r).tail := by
  apply List.ext_getElem
  · rw [List.length_tail, ringSeq_length, ringSeq_length]
    exact size_pred_toNat r
  · intro i hi hi'
    simp only [ringSeq, List.getElem_tail, List.getElem_map, List.getElem_range, ringAt, slotOf_ringEvict r i h h']
    rfl

/-- An append with room puts the element at the end (spec/43_ringbuffer.md R191). -/
theorem ringSeq_ringAppend {cap : Nat} (p : Nat → BitVec w) (x : BitVec w) (r : RingBuf w) (h' : cap ≤ 65535)
    (hs : r.size.toNat < cap) (ht : r.tail.toNat = (r.head.toNat + r.size.toNat) % cap) :
    ringSeq cap p (ringAppend cap x r) = ringSeq cap p r ++ [x] := by
  simp only [ringSeq, ringAppend, size_succ_toNat hs h', List.range_succ, List.map_append, List.map_singleton]
  congr 1
  · apply List.map_congr_left
    intro i hi
    simp only [List.mem_range] at hi
    simp only [ringAt, slotOf]
    rw [memRead_memWrite_other _ _ _ _ _ (by rw [ht]; exact slot_ne hi hs)]
  · simp only [ringAt, slotOf, ← ht, memRead_memWrite_same]

/-- The element at the head of a buffer that is not empty is the first of its sequence. -/
theorem ringSeq_eq_cons {cap : Nat} {p : Nat → BitVec w} {r : RingBuf w} (h0 : r.size.toNat ≠ 0)
    (hh : r.head.toNat < cap) (h : 1 ≤ cap) (h' : cap ≤ 65535) :
    ringSeq cap p r = memRead p r.slots r.head.toNat :: ringSeq cap p (ringEvict cap r) := by
  rw [ringSeq_ringEvict _ _ h h']
  have hne : ringSeq cap p r ≠ [] := by
    intro e
    exact h0 (by rw [← ringSeq_length cap p r, e]; rfl)
  conv => lhs; rw [← List.cons_head_tail hne]
  congr 1
  rw [List.head_eq_getElem]
  simp [ringSeq, ringAt, slotOf, Nat.mod_eq_of_lt hh]

/-- An eviction keeps the invariant. -/
theorem ringInv_ringEvict {cap : Nat} {r : RingBuf w} (h : 1 ≤ cap) (h' : cap ≤ 65535) (hr : RingInv cap r)
    (hs : r.size.toNat ≠ 0) : RingInv cap (ringEvict cap r) := by
  obtain ⟨hsize, htail, hwf, hin, hall⟩ := hr
  refine ⟨?_, ?_, hwf, hin, ?_⟩
  · simp only [ringEvict, size_pred_toNat]
    omega
  · simp only [ringEvict, size_pred_toNat, advance_toNat _ h h', Nat.mod_add_mod]
    rw [htail]
    congr 1
    omega
  · intro i hi
    rw [slotOf_ringEvict r i h h']
    simp only [ringEvict, size_pred_toNat] at hi ⊢
    exact hall _ (by omega)

/-- An append with room keeps the invariant, the canonical form of the storage with it. -/
theorem ringInv_ringAppend {cap : Nat} {r : RingBuf w} (x : BitVec w) (h : 1 ≤ cap) (h' : cap ≤ 65535) (hr : RingInv cap r)
    (hs : r.size.toNat < cap) : RingInv cap (ringAppend cap x r) := by
  obtain ⟨hsize, htail, hwf, hin, hall⟩ := hr
  refine ⟨?_, ?_, memWrite_wf _ _ hwf, memWrite_within _ (by rw [htail]; exact Nat.mod_lt _ h) hin, ?_⟩
  · simp only [ringAppend, size_succ_toNat hs h']
    omega
  · simp only [ringAppend, size_succ_toNat hs h', advance_toNat _ h h']
    rw [htail, Nat.mod_add_mod]
    congr 1
  · intro i hi
    simp only [ringAppend, size_succ_toNat hs h'] at hi
    simp only [ringAppend, slotOf]
    by_cases hlast : i = r.size.toNat
    · rw [hlast, htail, memLookup_memWrite_same]
      rfl
    · rw [memLookup_memWrite_other _ _ _ _ (by rw [htail]; exact slot_ne (by omega) hs)]
      exact hall i (by omega)

/-- Every operation of a buffer keeps the canonical form of its storage. -/
theorem ringPush_wf {cap : Nat} (policy : Policy) (x : BitVec w) {r : RingBuf w} (h : Memory.wf r.slots) :
    Memory.wf (ringPush cap policy x r).slots := by
  unfold ringPush
  split
  · cases policy
    · exact memWrite_wf _ _ h
    · exact h
  · exact memWrite_wf _ _ h

/-- A cleared buffer is empty. -/
@[simp] theorem ringSeq_ringClear (cap : Nat) (p : Nat → BitVec w) (r : RingBuf w) : ringSeq cap p (ringClear r) = [] := rfl

end Sys2Proof.Machine
end

