-- ==== Sys2Proof/Tests/Slice0.lean ====
section
/-!
SUPPORT. The model's own tests, expected values from spec/95_test_vectors.md (the vector's name stands in the comment), and
for every statement with hypotheses a witness that meets them together.
-/

namespace Sys2Proof.Tests

open Sys2Proof Sys2Proof.Machine

/-! ## Helpers -/

/-- TRI8 and CAP4 of spec/95_test_vectors.md section 1. -/
def tri (e : OscEdge) (i : OscInterp) (p : Policy) : Config where
  lutAw := 3
  lutInit := [0, 16384, 32768, 16384, 0, -16384, -32768, -16384]
  oscEdge := e
  oscInterp := i
  rb0Cap := 4
  rb0Policy := p
  mqCap := 4
  legal := by cases e <;> cases i <;> cases p <;> decide

/-- From reset, OVERWRITE. -/
def fresh : State := State.resetWith (tri .wrap .none .overwrite)

/-- From reset, DISCARD. -/
def freshDiscard : State := State.resetWith (tri .clamp .linear .discard)

/-- The envelope at a phase and output with the rates of vector E1. -/
def env (p : EnvPhase) (o : BitVec 32) : State :=
  { fresh with envPhase := p, envOut := o, envArate := some 0x20000000, envRrate := some 0x40000000 }

/-- RB0 holding A1, A2, A3, A4 from slot 0. -/
def full (s : State) : State :=
  { s with rb0 := { head := 0, tail := 0, size := 4, slots := [(0, 0xA1), (1, 0xA2), (2, 0xA3), (3, 0xA4)] } }

/-- RB0 holding A2, A3, A4 from slot 1 on. -/
def three (s : State) : State :=
  { s with rb0 := { head := 1, tail := 0, size := 3, slots := [(0, 0xA1), (1, 0xA2), (2, 0xA3), (3, 0xA4)] } }

/-- The parser in a state, MQ holding `n` copies of the note 0x207F. -/
def midi (p : ParserState) (status : BitVec 8) (d : BitVec 7) (n : Fin 5) : State :=
  { fresh with
    mpState := p, mpStatus := status, mpData1 := d
    mq :=
      { head := 0, tail := BitVec.ofNat 16 (n.val % 4), size := BitVec.ofNat 16 n.val
        slots := (List.range n.val).map (fun i => (i, 0x207F)) } }

/-- The oscillator of vector O1. -/
def osc (phase : BitVec 32) : State :=
  { fresh with oscPhase := phase, oscSr := some 48000, oscFreq := some 0x17700000, oscDelta := some 0x20000000 }

/-- A question about the next state; false where the machine stops. -/
def nextIs (r : StepResult) (q : State → Bool) : Bool :=
  match r with
  | .next t => q t
  | .fault _ => false
  | .refused _ => false

/-- The word a command answers from a state whose response port is empty. -/
def answers (i : Instr) (s : State) (w : RspWord) : Bool := nextIs (exec i s) (fun t => decide (t.out = [w]))

/-! ## WellFormed refuses what R98, R99 and R5 refuse -/

theorem test_wf_operand_too_wide : SourceLine.wellFormed ⟨.envSeta, [16777216, 1]⟩ = false := by decide
theorem test_wf_second_operand_too_wide : SourceLine.wellFormed ⟨.envSetr, [1, 16777216]⟩ = false := by decide
theorem test_wf_s_too_wide : SourceLine.wellFormed ⟨.oscSetsr, [16777216]⟩ = false := by decide
theorem test_wf_w_too_wide : SourceLine.wellFormed ⟨.rbPush, [4294967296]⟩ = false := by decide
theorem test_wf_i_too_wide : SourceLine.wellFormed ⟨.rbAt, [65536]⟩ = false := by decide
theorem test_wf_b_too_wide : SourceLine.wellFormed ⟨.midiParse, [256]⟩ = false := by decide
theorem test_wf_too_few : SourceLine.wellFormed ⟨.envSeta, [1]⟩ = false := by decide
theorem test_wf_too_many : SourceLine.wellFormed ⟨.sysNop, [0]⟩ = false := by decide
theorem test_wf_largest : SourceLine.wellFormed ⟨.envSeta, [16777215, 16777215]⟩ = true := by decide
theorem test_wf_hertz : Pseudo.wellFormed (.oscSetHz 65536) = false := by decide
theorem test_wf_feed : Pseudo.wellFormed (.midiFeed [0x90, 256]) = false := by decide

/-- A raw configuration with one parameter of each kind to spoil. -/
def raw (aw : Nat) (table : List Int) (cap mq : Nat) : RawConfig := ⟨aw, table, .wrap, .none, cap, .discard, mq⟩

theorem test_cfg_smallest : (raw 1 [-32768, 32768] 1 65535).legal = true := by decide
theorem test_cfg_aw_zero : (raw 0 [0] 1 1).legal = false := by decide
theorem test_cfg_aw_large : (raw 17 [0] 1 1).legal = false := by decide
theorem test_cfg_table_length : (raw 1 [0, 0, 0] 1 1).legal = false := by decide
theorem test_cfg_entry_high : (raw 1 [0, 32769] 1 1).legal = false := by decide
theorem test_cfg_entry_low : (raw 1 [-32769, 0] 1 1).legal = false := by decide
theorem test_cfg_rb0_zero : (raw 1 [0, 0] 0 1).legal = false := by decide
theorem test_cfg_rb0_large : (raw 1 [0, 0] 65536 1).legal = false := by decide
theorem test_cfg_mq_zero : (raw 1 [0, 0] 1 0).legal = false := by decide
theorem test_cfg_mq_large : (raw 1 [0, 0] 1 65536).legal = false := by decide

/-! ## Decoding, the words of section 3.1 -/

theorem test_decode_sysNop : decode 0x0000000000000000 = .ok .sysNop := by decide
theorem test_decode_sysReset : decode 0x0100000000000000 = .ok .sysReset := by decide
theorem test_decode_envStep : decode 0x1000000000000000 = .ok .envStep := by decide
theorem test_decode_envGate : decode 0x1100000000000000 = .ok .envGate := by decide
theorem test_decode_envSeta : decode 0x1200000001000FA0 = .ok (.envSeta 1 4000) := by decide
theorem test_decode_envSeta_ones : decode 0x1200FFFFFFFFFFFF = .ok (.envSeta 0xFFFFFF 0xFFFFFF) := by decide
theorem test_decode_envSetr : decode 0x130000000A00BB80 = .ok (.envSetr 10 48000) := by decide
theorem test_decode_envStat : decode 0x1400000000000000 = .ok .envStat := by decide
theorem test_decode_envRda : decode 0x1500000000000000 = .ok .envRda := by decide
theorem test_decode_envRdr : decode 0x1600000000000000 = .ok .envRdr := by decide
theorem test_decode_oscStep : decode 0x2000000000000000 = .ok .oscStep := by decide
theorem test_decode_oscSetsr : decode 0x210000000000BB80 = .ok (.oscSetsr 48000) := by decide
theorem test_decode_oscSetf : decode 0x2200000017700000 = .ok (.oscSetf 0x17700000) := by decide
theorem test_decode_oscStat : decode 0x2300000000000000 = .ok .oscStat := by decide
theorem test_decode_oscRdd : decode 0x2400000000000000 = .ok .oscRdd := by decide
theorem test_decode_rbPush : decode 0x30000000FFFFC000 = .ok (.rbPush 0xFFFFC000) := by decide
theorem test_decode_rbPop : decode 0x3100000000000000 = .ok .rbPop := by decide
theorem test_decode_rbAt : decode 0x3200000000000003 = .ok (.rbAt 3) := by decide
theorem test_decode_rbClear : decode 0x3300000000000000 = .ok .rbClear := by decide
theorem test_decode_rbSize : decode 0x3400000000000000 = .ok .rbSize := by decide
theorem test_decode_midiParse : decode 0x4000000000000090 = .ok (.midiParse 0x90) := by decide
theorem test_decode_midiAvail : decode 0x4100000000000000 = .ok .midiAvail := by decide
theorem test_decode_midiPop : decode 0x4200000000000000 = .ok .midiPop := by decide
theorem test_decode_midiStat : decode 0x4300000000000000 = .ok .midiStat := by decide

theorem test_decode_unlisted :
    [0x0200000000000000, 0x1700000000000000, 0x2500000000000000, 0x3500000000000000, 0x4400000000000000,
      0x5000000000000000, 0xFFFFFFFFFFFFFFFF].map decode = List.replicate 7 (.error .unlistedOpcode) := by decide
theorem test_decode_reserved :
    [0x1001000000000000, 0x12FF000001000FA0].map decode = List.replicate 2 (.error .reservedField) := by decide
theorem test_decode_padding :
    [0x1100000000000001, 0x0000000000000001, 0x2100000001000000, 0x2200000100000000, 0x3200000000010000,
      0x4000000000000190].map decode = List.replicate 6 (.error .operandPadding) := by decide
theorem test_encode_envSeta : encode (.envSeta 1 44100) = 0x120000000100AC44 := by decide
theorem test_tableWord_short : decodeTableWord 8 0x00 = some .sysNop := by decide
theorem test_tableWord_long : decodeTableWord 72 0x00 = none := by decide

/-! ## Assembler text (R98, R99) -/

theorem test_read_line : readLine "ENV.SETA 1, 4000 ; attack".toList = some ⟨.envSeta, [1, 4000]⟩ := by decide
theorem test_read_hex : readLine "RB.PUSH 0xFFFFc000".toList = some ⟨.rbPush, [0xFFFFC000]⟩ := by decide
theorem test_read_unknown : readLine "ENV.SET 1, 4000".toList = none := by decide
theorem test_read_no_digit : readLine "RB.AT 0x".toList = none := by decide
/-- The first two are examples of spec/42_oscillator.md R164; separators are spec/00_scope.md R6. -/
theorem test_read_separator :
    ["OSC.SETF 0x1770_0000", "OSC.SETF 0x01B8_0000", "ENV.SETA 1_6, 44_100"].map (fun l => readLine l.toList) =
      [some ⟨.oscSetf, [0x17700000]⟩, some ⟨.oscSetf, [0x01B80000]⟩, some ⟨.envSeta, [16, 44100]⟩] := by decide
theorem test_read_separator_outside :
    ["RB.AT _1", "RB.AT 1_", "RB.AT 0x_1", "RB.AT 1__2"].map (fun l => readLine l.toList) = List.replicate 4 none := by
  decide
theorem test_assemble : assemble ⟨.envSetr, [10, 48000]⟩ = some (.envSetr 10 48000) := by decide
theorem test_assemble_error : assemble ⟨.rbAt, [65536]⟩ = none := by decide
theorem test_expand_hertz : expand (.oscSetHz 440) = some [.oscSetf 0x01B80000] := by decide
theorem test_expand_feed : expand (.midiFeed [0x90, 0x40]) = some [.midiParse 0x90, .midiParse 0x40] := by decide
theorem test_expand_drop : expand (.rbDrop 2) = some [.rbPop, .rbPop] := by decide

/-! ## Arithmetic (sections 3.3 and 3.4) -/

theorem test_rate_zero : rate 0 44100 = 0x80000000 := by decide
theorem test_rate_rounds_up : rate 3 1000 = 715827883 := by decide
theorem test_rate_44100 : rate 1 44100 = 48695775 := by decide
theorem test_rate_smallest : rate 16777215 16777215 = 1 := by decide
theorem test_env_up_exact : envUp 0x60000000 0x20000000 = (0x80000000, true) := by decide
theorem test_env_up_below : envUp 0x5FFFFFFF 0x20000000 = (0x7FFFFFFF, false) := by decide
theorem test_env_down_equal : envDown 0x40000000 0x40000000 = (0, true) := by decide
theorem test_env_down_above : envDown 0x40000001 0x40000000 = (1, false) := by decide
theorem test_delta_largest : phaseDelta 0xFFFFFFFF 44100 = 0x7C6F8C73 := by decide
theorem test_delta_slowest : phaseDelta 0xFFFFFFFF 1 = 0xFFFF0000 := by decide
theorem test_adv_wraps : phaseAdv 0xF0000000 0x20000000 = 0x10000000 := by decide
theorem test_lut_none : lutRead (tri .wrap .none .discard) 0x5FFFFFFF = 32768 := by decide
theorem test_lut_floor : lutRead (tri .wrap .linear .discard) 0x90000001 = -8193 := by decide
theorem test_lut_wrap : lutRead (tri .wrap .linear .discard) 0xFFFFFFFF = -1 := by decide
theorem test_lut_clamp : lutRead (tri .clamp .linear .discard) 0xFFFFFFFF = -16384 := by decide

/-! ## One step of each command -/

theorem test_sysNop : answers .sysNop (env .release 0x40000000) 0x0000000000000000 = true := by decide
theorem test_sysReset :
    nextIs (exec .sysReset (full (osc 0x40000000)))
      (fun t => decide (t.oscDelta = none ∧ t.oscPhase = 0 ∧ t.rb0.size = 0 ∧ memRead Config.rb0PowerOn t.rb0.slots 2 = 0xA3))
      = true := by decide
theorem test_envStep_peak_E1 : answers .envStep (env .attack 0x60000000) 0x0800000280000000 = true := by decide
theorem test_envStep_end_E1 : answers .envStep (env .release 0x40000000) 0x0800000000000000 = true := by decide
theorem test_envGate_keeps_output_E2 :
    nextIs (exec .envGate (env .release 0x40000000)) (fun t => decide (t.envPhase = .attack ∧ t.envOut = 0x40000000))
      = true := by decide
theorem test_envSeta_rate :
    nextIs (exec (.envSeta 1 4000) fresh) (fun t => decide (t.envArate = some 0x20000000 ∧ t.envRrate = none)) = true := by
  decide
theorem test_envSeta_bad : answers (.envSeta 1 0) fresh 0xA000000000000000 = true := by decide
theorem test_envSetr_rate :
    nextIs (exec (.envSetr 1 2000) fresh) (fun t => decide (t.envRrate = some 0x40000000 ∧ t.envArate = none)) = true := by
  decide
theorem test_envSetr_bad : answers (.envSetr 0 0) fresh 0xA000000000000000 = true := by decide
theorem test_envStat : answers .envStat (env .attack 0x40000000) 0x0800000140000000 = true := by decide
theorem test_envRda : answers .envRda (env .idle 0) 0x0800000020000000 = true := by decide
theorem test_envRda_unset : answers .envRda fresh 0xB000000000000000 = true := by decide
theorem test_envRdr : answers .envRdr (env .idle 0) 0x0800000040000000 = true := by decide
theorem test_envRdr_unset : answers .envRdr fresh 0xB000000000000000 = true := by decide
theorem test_oscStep_negative_O1 : answers .oscStep (osc 0xA0000000) 0x08000000FFFFC000 = true := by decide
theorem test_oscStep_reads_before_advance_O1 :
    nextIs (exec .oscStep (osc 0xE0000000)) (fun t => decide (t.oscPhase = 0 ∧ t.out = [0x08000000FFFFC000])) = true := by
  decide
theorem test_oscSetsr_first_O8 :
    nextIs (exec (.oscSetsr 48000) fresh) (fun t => decide (t.oscSr = some 48000 ∧ t.oscDelta = none)) = true := by decide
theorem test_oscSetsr_second_O8 :
    nextIs (exec (.oscSetsr 48000) { fresh with oscFreq := some 0x17700000 })
      (fun t => decide (t.oscDelta = some 0x20000000)) = true := by decide
theorem test_oscSetf_first_O8 :
    nextIs (exec (.oscSetf 0x17700000) fresh) (fun t => decide (t.oscFreq = some 0x17700000 ∧ t.oscDelta = none))
      = true := by decide
theorem test_oscSetf_keeps_phase_O9 :
    nextIs (exec (.oscSetf 0x0BB80000) (osc 0x60000000))
      (fun t => decide (t.oscDelta = some 0x10000000 ∧ t.oscPhase = 0x60000000)) = true := by decide
theorem test_oscStat : answers .oscStat (osc 0xC0000000) 0x08000000C0000000 = true := by decide
theorem test_oscRdd : answers .oscRdd (osc 0) 0x0800000020000000 = true := by decide
theorem test_oscRdd_unset : answers .oscRdd fresh 0xB000000000000000 = true := by decide
theorem test_rbPush_overwrite_B1 :
    nextIs (exec (.rbPush 0xA5) (full fresh))
      (fun t => decide (rb0Seq t = [0xA2, 0xA3, 0xA4, 0xA5] ∧ t.rb0.head = 1 ∧ t.rb0.tail = 1)) = true := by decide
theorem test_rbPush_discard_B2 :
    nextIs (exec (.rbPush 0xA5) (full freshDiscard)) (fun t => decide (rb0Seq t = [0xA1, 0xA2, 0xA3, 0xA4])) = true := by
  decide
theorem test_rbPop_B2 :
    nextIs (exec .rbPop (full freshDiscard))
      (fun t => decide (rb0Seq t = [0xA2, 0xA3, 0xA4] ∧ t.rb0.head = 1 ∧ t.out = [0x08000000000000A1])) = true := by decide
theorem test_rbPop_empty : answers .rbPop fresh 0x0000000000000000 = true := by decide
theorem test_rbAt_wraps : answers (.rbAt 2) (three fresh) 0x08000000000000A4 = true := by decide
theorem test_rbAt_beyond_B6 : exec (.rbAt 3) (three fresh) = .fault .rbAtBeyondSize := rfl
theorem test_rbClear_B1 :
    nextIs (exec .rbClear (three fresh))
      (fun t => decide (rb0Seq t = [] ∧ t.rb0.head = 0 ∧ memRead Config.rb0PowerOn t.rb0.slots 1 = 0xA2)) = true := by decide
theorem test_rbSize_B1 : answers .rbSize (full fresh) 0x0800000000000004 = true := by decide
theorem test_midiParse_completes_S6 :
    nextIs (exec (.midiParse 0x7F) (midi .awaitData2 0x90 64 0))
      (fun t => decide (mqSeq t = [0x207F] ∧ t.mpState = .awaitData1 ∧ t.mpStatus = 0x90 ∧ t.mpData1 = 0)) = true := by decide
theorem test_midiParse_unrecognised_M7 :
    nextIs (exec (.midiParse 0xF8) (midi .awaitData2 0x90 64 0))
      (fun t => decide (t.mpState = .awaitStatus ∧ t.mpStatus = 0 ∧ t.mpData1 = 0 ∧ mqSeq t = [])) = true := by decide
theorem test_midiAvail_M8 : answers .midiAvail (midi .awaitData1 0x90 0 1) 0x0800000000000001 = true := by decide
theorem test_midiAvail_empty_M8 : answers .midiAvail fresh 0x0800000000000000 = true := by decide
theorem test_midiPop_M8 : answers .midiPop (midi .awaitData1 0x90 0 1) 0x080000000000207F = true := by decide
theorem test_midiPop_empty_M8 : answers .midiPop fresh 0x0000000000000000 = true := by decide
theorem test_midiStat_S6 : answers .midiStat (midi .awaitData1 0x90 0 1) 0x0800000001009001 = true := by decide
theorem test_pack_off : packNote .noteOff 60 64 = 0x5E40 := by decide
theorem test_pack_other : packNote .other 127 127 = 0xBFFF := by decide

/-! ## The step on its port -/

theorem test_step_illegal_P4 :
    nextIs (step (State.withFetchWord fresh 64 0x1700000000000000))
      (fun t => decide (t = { fresh with out := [0x9000000000000000] })) = true := by decide
theorem test_step_runs_P1 :
    nextIs (step (State.withFetchWord fresh 64 0x1100000000000000)) (fun t => decide (t.envPhase = .attack ∧ t.port = []))
      = true := by decide
theorem test_step_reset_input :
    nextIs (step { env .attack 0x20000000 with port := [.reset] }) (fun t => decide (t = fresh)) = true := by decide
theorem test_step_idle : nextIs (step fresh) (fun t => decide (t = fresh)) = true := by decide
theorem test_step_reset_legal_chip : nextIs (step State.reset) (fun t => decide (t.envOut = 0)) = true := by decide

/-! ## Witnesses: for each statement with hypotheses, a state and operands that meet them, one for each clause -/

/-- A state with every part in use: RELEASE, a running oscillator, a wrapped RB0, a note in MQ, half a message parsed. -/
def demo : State :=
  { midi .awaitData2 0x90 64 1 with
    envPhase := .release, envOut := 0x40000000, envArate := some 0x20000000, envRrate := some 0x40000000
    oscPhase := 0xE0000000, oscSr := some 48000, oscFreq := some 0x17700000, oscDelta := some 0x20000000
    rb0 := (three fresh).rb0 }

/-- The same view with other bookkeeping: RB0's three elements from slot 0 on, MQ's note in slot 3. -/
def demoMoved : State :=
  { demo with
    rb0 := { head := 0, tail := 3, size := 3, slots := [(0, 0xA2), (1, 0xA3), (2, 0xA4)] }
    mq := { head := 3, tail := 0, size := 1, slots := [(3, 0x207F)] } }

/-- Registers out of their legal values. -/
def illegal : State := { fresh with envOut := 0x80000001 }

/-- A queue whose notes are listed has kinds of 0, 1 and 2 alone. -/
theorem notes_of {s : State} {l : List (BitVec 16)} (h : mqSeq s = l)
    (hl : l.all (fun n => decide (n.toNat / 2 ^ 14 < 3)) = true) : NotesInv s := by
  intro n hn
  rw [h] at hn
  have := List.all_eq_true.mp hl n hn
  exact Nat.le_of_lt_succ (of_decide_eq_true this)

theorem demo_inv : BlockInv demo :=
  ⟨by decide, by unfold EnvInv; decide, by unfold OscInv; decide, by unfold RingInv; decide, by unfold RingInv; decide,
    by unfold ParserInv; decide, notes_of (l := [0x207F]) (by decide) (by decide)⟩

theorem demoMoved_inv : BlockInv demoMoved :=
  ⟨by decide, by unfold EnvInv; decide, by unfold OscInv; decide, by unfold RingInv; decide, by unfold RingInv; decide,
    by unfold ParserInv; decide, notes_of (l := [0x207F]) (by decide) (by decide)⟩

theorem witness_EncodeOfDecodeIsTheWord : decode 0x120000000100AC44 = .ok (.envSeta 1 44100) := by decide

theorem witness_DecoderAcceptsExactlyTheOpcodeMap :
    ⟨.rbAt, 0x3200000000000000, 0xFFFFFFFFFFFF0000⟩ ∈ opcodeTable
      ∧ (0x320000000000FFFF : CmdWord) &&& 0xFFFFFFFFFFFF0000 = 0x3200000000000000
      ∧ decode 0x320000000000FFFF = .ok (.rbAt 0xFFFF) := by decide

theorem witness_IllegalWordsAnswerIllegal :
    stateLegal { demo with port := [.command 0x1001000000000000] } = true
      ∧ ∀ row ∈ opcodeTable, (0x1001000000000000 : CmdWord) &&& row.mask ≠ row.pattern := by decide

theorem witness_StepRunsTheDecodedCommand :
    (demo.withFetchWord 64 0x1100000000000000).port = .command 0x1100000000000000 :: demo.port
      ∧ decode 0x1100000000000000 = .ok .envGate := by decide

theorem witness_IdlePortLeavesTheBlockAlone : stateLegal demo = true ∧ demo.port = [] := by decide

theorem witness_ResetInputWritesEveryRegister :
    stateLegal { demo with port := [.reset] } = true ∧ ({ demo with port := [.reset] } : State).port = .reset :: [] := by
  decide

theorem witness_StreamOfWordsRunsAsItsCommands :
    ∃ t, execAll [.envGate, .envStep, .rbPop] { demo with port := [.reset] } = .next t := ⟨_, rfl⟩

theorem witness_ResponseWordsAreTheOnesOfTheTable : ∃ d, Response.okd 0xFFFFFFFFFFFF = .okd d := ⟨_, rfl⟩

theorem witness_OneResponsePerCommand : ∃ t, exec .midiPop demo = .next t := ⟨_, rfl⟩

theorem witness_ErrorResponsesWriteNothing :
    ∃ t word, exec .envRda fresh = .next t ∧ t.out = fresh.out ++ [word] ∧ word.getLsbD 63 = true :=
  ⟨_, 0xB000000000000000, rfl, rfl, by decide⟩

theorem witness_BadOperandIsASampleRateOfZero :
    stateLegal demo = true ∧ ∃ t, exec (.envSetr 7 0) demo = .next t ∧ t.out = demo.out ++ [0xA000000000000000] :=
  ⟨by decide, _, rfl, rfl⟩

theorem witness_UnsetIsAReadOfAnUnsetRegister :
    stateLegal fresh = true ∧ ∃ t, exec .oscStep fresh = .next t ∧ t.out = fresh.out ++ [0xB000000000000000] :=
  ⟨by decide, _, rfl, rfl⟩

theorem witness_UnsetIsAReadOfAnUnsetRegister_envStep :
    ∃ t, exec .envStep { fresh with envPhase := .attack } = .next t ∧ t.out = fresh.out ++ [0xB000000000000000] :=
  ⟨_, rfl, rfl⟩

theorem witness_OnlyRbAtBeyondTheSizeStops :
    stateLegal demo = true ∧ (2 : BitVec 16).toNat < demo.rb0.size.toNat ∧ demo.rb0.size.toNat ≤ (3 : BitVec 16).toNat := by
  decide

theorem witness_IllegalStatesAreRefused : stateLegal illegal = false := by decide

theorem witness_SysNopOnlyAnswersOk : stateLegal demo = true := by decide

theorem witness_SysResetWritesEveryRegister : stateLegal demo = true := by decide

theorem witness_EnvStep_idle : stateLegal fresh = true ∧ fresh.envPhase = .idle := by decide

theorem witness_EnvStep_attack_unset :
    stateLegal { fresh with envPhase := .attack } = true
      ∧ ({ fresh with envPhase := .attack } : State).envArate = none := by decide

theorem witness_EnvStep_attack_below :
    stateLegal (env .attack 0x5FFFFFFF) = true
      ∧ (env .attack 0x5FFFFFFF).envArate = some 0x20000000 ∧ 0x5FFFFFFF + 0x20000000 < ONE := by decide

theorem witness_EnvStep_attack_reaches :
    stateLegal (env .attack 0x60000000) = true
      ∧ (env .attack 0x60000000).envArate = some 0x20000000 ∧ ONE ≤ 0x60000000 + 0x20000000 := by decide

theorem witness_EnvStep_release_unset :
    stateLegal { fresh with envPhase := .release, envOut := 1 } = true
      ∧ ({ fresh with envPhase := .release, envOut := 1 } : State).envRrate = none := by decide

theorem witness_EnvStep_release_above :
    stateLegal (env .release 0x40000001) = true
      ∧ (env .release 0x40000001).envRrate = some 0x40000000 ∧ (0x40000000 : Nat) < 0x40000001 := by decide

theorem witness_EnvStep_release_reaches :
    stateLegal (env .release 0x40000000) = true
      ∧ (env .release 0x40000000).envRrate = some 0x40000000 ∧ (env .release 0x40000000).envOut.toNat ≤ 0x40000000 := by
  decide

theorem witness_EnvGate : stateLegal (env .attack 0x40000000) = true ∧ (env .attack 0x40000000).envPhase = .attack := by
  decide

theorem witness_EnvSeta : stateLegal demo = true ∧ (1 : BitVec 24) ≠ 0 ∧ (0 : BitVec 24) = 0 := by decide

theorem witness_EnvSetr : stateLegal demo = true ∧ (0xFFFFFF : BitVec 24) ≠ 0 ∧ (0 : BitVec 24) = 0 := by decide

theorem witness_EnvStat :
    (stateLegal fresh = true ∧ fresh.envPhase = .idle)
      ∧ (stateLegal (env .attack 0) = true ∧ (env .attack 0).envPhase = .attack)
      ∧ (stateLegal (env .release 0x80000000) = true ∧ (env .release 0x80000000).envPhase = .release) := by decide

theorem witness_EnvRateReads :
    (stateLegal demo = true ∧ demo.envArate = some 0x20000000 ∧ demo.envRrate = some 0x40000000)
      ∧ (stateLegal fresh = true ∧ fresh.envArate = none ∧ fresh.envRrate = none) := by decide

theorem witness_EnvelopeTransitions_other : EnvInv demo ∧ ∃ t, exec .rbSize demo = .next t :=
  ⟨demo_inv.2.1, _, rfl⟩

theorem witness_EnvelopeTransitions_gate : EnvInv demo ∧ ∃ t, exec .envGate demo = .next t :=
  ⟨demo_inv.2.1, _, rfl⟩

theorem witness_EnvelopeTransitions_idle : EnvInv fresh ∧ fresh.envPhase = .idle ∧ ∃ t, exec .envStep fresh = .next t :=
  ⟨by unfold EnvInv; decide, rfl, _, rfl⟩

theorem witness_EnvelopeTransitions_attack :
    (EnvInv (env .attack 0x5FFFFFFF) ∧ ∃ t, exec .envStep (env .attack 0x5FFFFFFF) = .next t)
      ∧ (EnvInv (env .attack 0x60000000) ∧ ∃ t, exec .envStep (env .attack 0x60000000) = .next t) :=
  ⟨⟨by unfold EnvInv; decide, _, rfl⟩, by unfold EnvInv; decide, _, rfl⟩

theorem witness_EnvelopeTransitions_release :
    (EnvInv (env .release 0x40000001) ∧ ∃ t, exec .envStep (env .release 0x40000001) = .next t)
      ∧ (EnvInv (env .release 0x40000000) ∧ ∃ t, exec .envStep (env .release 0x40000000) = .next t) :=
  ⟨⟨by unfold EnvInv; decide, _, rfl⟩, by unfold EnvInv; decide, _, rfl⟩

theorem witness_EnvelopeTransitions_unset :
    (EnvInv { fresh with envPhase := .attack } ∧ ∃ t, exec .envStep { fresh with envPhase := .attack } = .next t)
      ∧ (EnvInv { fresh with envPhase := .release, envOut := 1 }
        ∧ ∃ t, exec .envStep { fresh with envPhase := .release, envOut := 1 } = .next t) :=
  ⟨⟨by unfold EnvInv; decide, _, rfl⟩, by unfold EnvInv; decide, _, rfl⟩

theorem witness_RateIsTheRoundedUpQuotient :
    0 * 44100 = 0 ∧ 1 * 1001 ≠ 0 ∧ rate 1 1001 < ONE := by decide

theorem witness_EnvelopeCycleHasItsShape :
    stateLegal (env .idle 0) = true ∧ (env .idle 0).envPhase = .idle ∧ (env .idle 0).envOut = 0
      ∧ (env .idle 0).envArate = some 0x20000000 ∧ (env .idle 0).envRrate = some 0x40000000 := by decide

theorem witness_AttackIsNeverLate :
    1 ≤ 46341 * 1000 ∧ 46341 * 1000 % 1000 = 0 ∧ 46341 * 1000 / 1000 ≤ 46341 := by decide

theorem witness_RetriggerContinuesFromTheOutput :
    stateLegal demo = true ∧ EnvInv demo ∧ demo.envPhase = .release ∧ demo.envArate = some 0x20000000 :=
  ⟨by decide, demo_inv.2.1, rfl, rfl⟩

theorem witness_OscStep :
    (stateLegal fresh = true ∧ fresh.oscDelta = none)
      ∧ (stateLegal (osc 0xE0000000) = true ∧ (osc 0xE0000000).oscDelta = some 0x20000000) := by decide

theorem witness_LutRead :
    (tri .wrap .none .discard).oscInterp = .none ∧ (tri .clamp .linear .discard).oscInterp = .linear
      ∧ (0xFFFFFFFF : Nat) < 2 ^ 32 := by decide

theorem witness_TableBoundary :
    (tri .wrap .linear .discard).lutInit[2 ^ 3 - 1]? = some (-16384) ∧ (tri .wrap .linear .discard).lutInit[0]? = some 0
      ∧ (2 ^ 3 - 1) * 2 ^ (32 - 3) ≤ 0xE0000000 ∧ 0xFFFFFFFF < 2 ^ 32
      ∧ (tri .clamp .linear .discard).oscEdge = .clamp ∧ (tri .wrap .linear .discard).oscEdge = .wrap := by decide

theorem witness_OscSetsr :
    stateLegal demo = true ∧ (1 : BitVec 24) ≠ 0 ∧ fresh.oscFreq = none ∧ stateLegal fresh = true
      ∧ demo.oscFreq = some 0x17700000 := by decide

theorem witness_OscSetf :
    stateLegal fresh = true ∧ fresh.oscSr = none ∧ stateLegal demo = true ∧ demo.oscSr = some 48000 := by decide

theorem witness_OscReads :
    stateLegal fresh = true ∧ fresh.oscDelta = none ∧ stateLegal demo = true ∧ demo.oscDelta = some 0x20000000 := by decide

theorem witness_ConsequencesOfThePrimitives :
    1 * 1000 ≤ 1000 ∧ 1 * 1000 ≤ 1 * 1001 ∧ rate 1 1001 < rate 1 1000 ∧ (1 : Nat) ≤ 48000 ∧ (0xFFFFFFFF : Nat) < 2 ^ 32
      ∧ (tri .wrap .none .discard).lutInit = (tri .clamp .none .discard).lutInit
      ∧ (tri .wrap .none .discard).oscInterp = .none ∧ (tri .clamp .none .discard).oscInterp = .none := by decide

theorem witness_NotesPack : 128 ≤ (0x80 : BitVec 8).toNat ∧ 128 ≤ (0xFF : BitVec 8).toNat := by decide

theorem witness_ResetValues :
    ({ demo with port := [.reset] } : State).port = .reset :: [] ∧ (∃ t, step { demo with port := [.reset] } = .next t)
      ∧ ∃ t, exec .sysReset demo = .next t := ⟨rfl, ⟨_, rfl⟩, _, rfl⟩

theorem witness_UnsetIsAReadOfAnUnsetRegister_setters :
    (∃ t, exec (.envSeta 0 1) fresh = .next t) ∧ (∃ t, exec (.oscSetf 0) (osc 0) = .next t) ∧ (osc 0).oscSr ≠ none
      ∧ (∃ t, exec (.oscSetsr 1) (osc 0) = .next t) ∧ (osc 0).oscFreq ≠ none :=
  ⟨⟨_, rfl⟩, ⟨_, rfl⟩, by decide, ⟨_, rfl⟩, by decide⟩

theorem witness_PhaseDelta : (1 : Nat) ≤ 1 ∧ phaseDelta 0xFFFFFFFF 1 = 0xFFFF0000 := by decide

theorem witness_PhaseAfterManySteps :
    stateLegal (osc 0xE0000000) = true ∧ (osc 0xE0000000).oscDelta = some 0x20000000 ∧ (0x20000000 : BitVec 32) ≠ 0
      ∧ 1 ≤ 48000 ∧ 0xBB7FFFFF < 48000 * 2 ^ 16 := by decide

theorem witness_RbPush :
    (stateLegal (three fresh) = true ∧ (three fresh).rb0.size.toNat ≠ (three fresh).cfg.rb0Cap)
      ∧ (stateLegal (full freshDiscard) = true ∧ (full freshDiscard).rb0.size.toNat = (full freshDiscard).cfg.rb0Cap
        ∧ (full freshDiscard).cfg.rb0Policy = .discard)
      ∧ (stateLegal (full fresh) = true ∧ (full fresh).rb0.size.toNat = (full fresh).cfg.rb0Cap
        ∧ (full fresh).cfg.rb0Policy = .overwrite) := by decide

theorem witness_RbPop :
    (stateLegal fresh = true ∧ fresh.rb0.size = 0)
      ∧ (stateLegal { three fresh with rb0 := { head := 3, tail := 0, size := 1, slots := [(3, 5)] } } = true
        ∧ (1 : BitVec 16) ≠ 0) := by decide

theorem witness_RbAt :
    stateLegal (three fresh) = true ∧ (2 : BitVec 16).toNat < (three fresh).rb0.size.toNat
      ∧ (three fresh).rb0.size.toNat ≤ (3 : BitVec 16).toNat := by decide

theorem witness_RbClear_RbSize : stateLegal (full fresh) = true := by decide

theorem witness_OnlyTheTailSlotIsWritten_push : ∃ t, exec (.rbPush 7) (three fresh) = .next t := ⟨_, rfl⟩

theorem witness_OnlyTheTailSlotIsWritten_dropped :
    (∃ t, exec (.rbPush 7) (full freshDiscard) = .next t)
      ∧ (full freshDiscard).rb0.size.toNat = (full freshDiscard).cfg.rb0Cap := ⟨⟨_, rfl⟩, rfl⟩

theorem witness_OnlyTheTailSlotIsWritten_note : ∃ t, exec (.midiParse 1) (midi .awaitData2 0x90 64 4) = .next t := ⟨_, rfl⟩

theorem witness_RingBufferRefinesABoundedQueue_empty :
    stateLegal fresh = true ∧ RingInv fresh.cfg.rb0Cap fresh.rb0 ∧ rb0Seq fresh = [] :=
  ⟨by decide, by unfold RingInv; decide, rfl⟩

theorem witness_RingBufferRefinesABoundedQueue_wrapped :
    stateLegal demo = true ∧ RingInv demo.cfg.rb0Cap demo.rb0 ∧ rb0Seq demo = 0xA2 :: [0xA3, 0xA4]
      ∧ (rb0Seq demo)[(2 : BitVec 16).toNat]? = some 0xA4 :=
  ⟨by decide, by unfold RingInv; decide, by decide, by decide⟩

/-- The push clause at a full buffer, under either policy. -/
theorem witness_RingBufferRefinesABoundedQueue_full :
    (stateLegal (full fresh) = true ∧ RingInv (full fresh).cfg.rb0Cap (full fresh).rb0
        ∧ (rb0Seq (full fresh)).length = (full fresh).cfg.rb0Cap ∧ (full fresh).cfg.rb0Policy = .overwrite)
      ∧ (stateLegal (full freshDiscard) = true ∧ RingInv (full freshDiscard).cfg.rb0Cap (full freshDiscard).rb0
        ∧ (rb0Seq (full freshDiscard)).length = (full freshDiscard).cfg.rb0Cap
        ∧ (full freshDiscard).cfg.rb0Policy = .discard) := by
  unfold RingInv
  decide

theorem fresh_inv : BlockInv fresh :=
  ⟨by decide, by unfold EnvInv; decide, by unfold OscInv; decide, by unfold RingInv; decide, by unfold RingInv; decide,
    by unfold ParserInv; decide, notes_of (l := []) (by decide) (by decide)⟩

theorem freshDiscard_inv : BlockInv freshDiscard :=
  ⟨by decide, by unfold EnvInv; decide, by unfold OscInv; decide, by unfold RingInv; decide, by unfold RingInv; decide,
    by unfold ParserInv; decide, notes_of (l := []) (by decide) (by decide)⟩

theorem witness_PushesKeepTheLastOrTheFirst :
    (BlockInv fresh ∧ fresh.rb0.size = 0 ∧ fresh.cfg.rb0Policy = .overwrite)
      ∧ (BlockInv freshDiscard ∧ freshDiscard.rb0.size = 0 ∧ freshDiscard.cfg.rb0Policy = .discard) :=
  ⟨⟨fresh_inv, rfl, rfl⟩, freshDiscard_inv, rfl, rfl⟩

theorem witness_MidiParse_status :
    stateLegal demo = true ∧ 128 ≤ (0x80 : BitVec 8).toNat ∧ (0x80 : BitVec 8).toNat / 16 ∈ [0x8, 0x9, 0xA, 0xB, 0xE]
      ∧ (0xBF : BitVec 8).toNat / 16 ∈ [0x8, 0x9, 0xA, 0xB, 0xE] := by decide

theorem witness_MidiParse_unrecognised :
    stateLegal demo = true ∧ 128 ≤ (0xC0 : BitVec 8).toNat ∧ (0xC0 : BitVec 8).toNat / 16 ∉ [0x8, 0x9, 0xA, 0xB, 0xE]
      ∧ (0xF0 : BitVec 8).toNat / 16 ∉ [0x8, 0x9, 0xA, 0xB, 0xE] := by decide

theorem witness_MidiParse_dropped : stateLegal fresh = true ∧ fresh.mpState = .awaitStatus ∧ (0x7F : BitVec 8).toNat < 128 := by
  decide

theorem witness_MidiParse_first : stateLegal (midi .awaitData1 0x90 0 0) = true ∧ (0x7F : BitVec 8).toNat < 128 := by decide

theorem witness_MidiParse_full :
    stateLegal (midi .awaitData2 0x90 64 4) = true
      ∧ (midi .awaitData2 0x90 64 4).mq.size.toNat = (midi .awaitData2 0x90 64 4).cfg.mqCap := by decide

theorem witness_MidiParse_room :
    stateLegal (midi .awaitData2 0x90 64 3) = true
      ∧ (midi .awaitData2 0x90 64 3).mq.size.toNat ≠ (midi .awaitData2 0x90 64 3).cfg.mqCap := by decide

theorem witness_MidiReads :
    stateLegal fresh = true ∧ fresh.mq.size = 0 ∧ stateLegal demo = true ∧ demo.mq.size ≠ 0 := by decide

theorem witness_MidiPop : stateLegal fresh = true ∧ fresh.mq.size = 0 ∧ stateLegal demo = true ∧ demo.mq.size ≠ 0 := by decide

theorem witness_RunningStatus : BlockInv demo ∧ recognisedStatus 0xEF = true := ⟨demo_inv, by decide⟩

theorem witness_DataWithoutAStatus :
    stateLegal fresh = true ∧ fresh.mpState = .awaitStatus ∧ ∀ b ∈ [(0x00 : BitVec 8), 0x7F], b.toNat < 128 := by decide

theorem witness_MqSizeChanges : ∃ t, exec (.midiParse 1) (midi .awaitData2 0x90 64 3) = .next t := ⟨_, rfl⟩

theorem witness_StepKeepsTheInvariants :
    BlockInv demo ∧ ∃ t, step (demo.withFetchWord 64 0x40000000000000FF) = .next t := ⟨demo_inv, _, rfl⟩

theorem witness_CommandsKeepRegistersLegal : ∃ t, exec .envStep demo = .next t := ⟨_, rfl⟩

theorem witness_Booted :
    Booted demo ∧ (∃ t, exec .oscStep demo = .next t) ∧ stateLegal fresh = true ∧ (48000 : BitVec 24) ≠ 0 :=
  ⟨by unfold Booted; decide, ⟨_, rfl⟩, by decide, by decide⟩

theorem witness_ParametersNeverChange :
    (∃ t, exec .oscStep demo = .next t) ∧ ∃ t, step { demo with port := [.reset] } = .next t := ⟨⟨_, rfl⟩, _, rfl⟩

theorem witness_UnitsAreIndependent :
    (∃ t, exec .oscStep demo = .next t) ∧ unitOf .oscStep ≠ 1 ∧ unitOf .oscStep ≠ 3 ∧ unitOf .oscStep ≠ 4
      ∧ unitOf .envStep ≠ 2 := ⟨⟨_, rfl⟩, by decide⟩

theorem witness_BufferBookkeepingIsUnobservable :
    BlockInv demo ∧ BlockInv demoMoved ∧ SameView demo demoMoved ∧ demo ≠ demoMoved :=
  ⟨demo_inv, demoMoved_inv, by unfold SameView; decide, by decide⟩

end Sys2Proof.Tests
end

/-! ## The primitives and responses of spec/00_scope.md: RATE, PHASE_DELTA, LUT_READ, the response word -/

section
namespace Sys2Proof.Machine

/-! ### RATE and PHASE_DELTA (R9, R12) -/

/-- `ceilDiv` is Mathlib's rounded-up division, so it is the adjoint of multiplication. -/
theorem ceilDiv_le_iff {a b n : Nat} (hb : 0 < b) : ceilDiv a b ≤ n ↔ a ≤ b * n := by
  rw [← ceilDiv_le_iff_le_mul hb, Nat.ceilDiv_eq_add_pred_div, ceilDiv, Nat.add_sub_assoc hb]

theorem natCast_ceilDiv {a b : Nat} (hb : 0 < b) : (ceilDiv a b : ℤ) = ⌈(a : ℚ) / (b : ℚ)⌉ := by
  have hq : (0 : ℚ) < b := by exact_mod_cast hb
  have hnat : ceilDiv a b = ⌈(a : ℚ) / (b : ℚ)⌉₊ := by
    refine eq_of_forall_ge_iff fun n => ?_
    rw [ceilDiv_le_iff hb, Nat.ceil_le, div_le_iff₀' hq]
    norm_cast
  rw [hnat, Int.natCast_ceil_eq_ceil (by positivity)]

theorem ceilDiv_pos {a b : Nat} (ha : 0 < a) (hb : 0 < b) : 0 < ceilDiv a b :=
  Nat.div_pos (by omega) hb

theorem rate_of_eq_zero {t s : Nat} (h : t * s = 0) : rate t s = ONE := if_pos h

theorem rate_of_ne_zero {t s : Nat} (h : t * s ≠ 0) : rate t s = min (ceilDiv (ONE * 1000) (t * s)) ONE := if_neg h

theorem rate_le_ONE (t s : Nat) : rate t s ≤ ONE := by
  by_cases h : t * s = 0
  · exact (rate_of_eq_zero h).le
  · exact (rate_of_ne_zero h).trans_le (min_le_right _ _)

theorem rate_pos (t s : Nat) : 1 ≤ rate t s := by
  by_cases h : t * s = 0
  · rw [rate_of_eq_zero h]
    decide
  · rw [rate_of_ne_zero h]
    exact le_min (ceilDiv_pos (by decide) (Nat.pos_of_ne_zero h)) (by decide)

/-- Settles O26: the two branches of RATE, the second by `natCast_ceilDiv`. -/
theorem rateIsTheRoundedUpQuotient : Obligations.RateIsTheRoundedUpQuotient := by
  intro t s
  refine ⟨rate_of_eq_zero, fun h => ?_, rate_pos t s, rate_le_ONE t s⟩
  rw [rate_of_ne_zero h, Nat.cast_min, natCast_ceilDiv (Nat.pos_of_ne_zero h)]
  push_cast
  rfl

theorem phaseDelta_lt (f s : Nat) : phaseDelta f s < 2 ^ 32 := Nat.mod_lt _ (by decide)

/-- Settles O36: the floor of a quotient of naturals is their integer quotient. -/
theorem phaseDeltaIsTheReducedQuotient : Obligations.PhaseDeltaIsTheReducedQuotient := by
  intro f s _
  have hfloor : ⌊((f : ℚ) * 2 ^ 16) / (s : ℚ)⌋ = ((f * 2 ^ 16 / s : ℕ) : ℤ) := by
    exact_mod_cast Rat.floor_natCast_div_natCast (f * 2 ^ 16) s
  refine ⟨?_, phaseDelta_lt f s⟩
  rw [hfloor, phaseDelta, PH_W]
  push_cast
  rfl

/-! ### LUT_READ (R14) -/

theorem two_pow_fracW_mul_lutN (c : Config) : 2 ^ c.fracW * c.lutN = 2 ^ 32 := by
  obtain ⟨-, haw, -⟩ := config_ranges c
  rw [Config.lutN, ← pow_add, Config.fracW, PH_W, Nat.sub_add_cancel (by omega)]

theorem lutIndex_lt (c : Config) {p : Nat} (hp : p < 2 ^ 32) : lutIndex c p < c.lutN :=
  Nat.div_lt_of_lt_mul (by rwa [two_pow_fracW_mul_lutN])

theorem lutFrac_lt (c : Config) (p : Nat) : lutFrac c p < 2 ^ c.fracW := Nat.mod_lt _ (by positivity)

theorem lutNext_lt (c : Config) (idx : Nat) : lutNext c idx < c.lutN := by
  have hN : 0 < c.lutN := Nat.pow_pos (by decide)
  unfold lutNext
  split
  · exact Nat.mod_lt _ hN
  · omega

/-- An index inside the table reads the entry that is there (notes/assumptions/12.md). -/
theorem lutInit_getElem? {c : Config} {i : Nat} (h : i < c.lutN) : c.lutInit[i]? = some (lutEntry c i) := by
  obtain ⟨-, -, hlen, -⟩ := config_ranges c
  have hi : i < c.lutInit.length := hlen ▸ h
  rw [lutEntry, List.getD_eq_getElem _ _ hi, List.getElem?_eq_getElem hi]

theorem lutEntry_range {c : Config} {i : Nat} (h : i < c.lutN) : -SONE ≤ lutEntry c i ∧ lutEntry c i ≤ SONE := by
  obtain ⟨-, -, -, hall, -⟩ := config_ranges c
  exact hall _ (List.mem_of_getElem? (lutInit_getElem? h))

theorem lutRead_of_none {c : Config} (p : Nat) (h : c.oscInterp = .none) :
    lutRead c p = lutEntry c (lutIndex c p) := by
  simp only [lutRead, h]

theorem lutRead_of_linear {c : Config} (p : Nat) (h : c.oscInterp = .linear) :
    lutRead c p =
      lutEntry c (lutIndex c p)
        + (lutEntry c (lutNext c (lutIndex c p)) - lutEntry c (lutIndex c p)) * (lutFrac c p : ℤ) / 2 ^ c.fracW := by
  simp only [lutRead, h]

/-- A part `f / d` of the way from `a` to `b`, rounded down, stays between them. -/
theorem interpolation_between (a b : ℤ) {f d : ℤ} (hf : 0 ≤ f) (hfd : f ≤ d) (hd : 0 < d) :
    min a b ≤ a + (b - a) * f / d ∧ a + (b - a) * f / d ≤ max a b := by
  rcases le_total a b with hab | hba
  · have hlow : 0 ≤ (b - a) * f / d := Int.ediv_nonneg (mul_nonneg (by omega) hf) hd.le
    have hhigh : (b - a) * f / d ≤ b - a :=
      Int.ediv_le_of_le_mul hd (mul_le_mul_of_nonneg_left hfd (by omega))
    omega
  · have hlow : b - a ≤ (b - a) * f / d :=
      (Int.le_ediv_iff_mul_le hd).mpr (mul_le_mul_of_nonpos_left hfd (by omega))
    have hhigh : (b - a) * f / d ≤ 0 :=
      Int.ediv_le_of_le_mul hd (by rw [zero_mul]; exact mul_nonpos_of_nonpos_of_nonneg (by omega) hf)
    omega

/-- LUT_READ stays between the entry and its neighbour, under every setting. -/
theorem lutRead_between (c : Config) (p : Nat) :
    min (lutEntry c (lutIndex c p)) (lutEntry c (lutNext c (lutIndex c p))) ≤ lutRead c p
      ∧ lutRead c p ≤ max (lutEntry c (lutIndex c p)) (lutEntry c (lutNext c (lutIndex c p))) := by
  cases h : c.oscInterp with
  | none =>
    rw [lutRead_of_none p h]
    exact ⟨min_le_left _ _, le_max_left _ _⟩
  | linear =>
    rw [lutRead_of_linear p h]
    exact interpolation_between _ _ (by positivity) (by exact_mod_cast (lutFrac_lt c p).le) (by positivity)

theorem lutRead_range (c : Config) {p : Nat} (hp : p < 2 ^ 32) : -SONE ≤ lutRead c p ∧ lutRead c p ≤ SONE := by
  obtain ⟨hlow, hhigh⟩ := lutRead_between c p
  obtain ⟨ha, ha'⟩ := lutEntry_range (lutIndex_lt c hp)
  obtain ⟨hb, hb'⟩ := lutEntry_range (lutNext_lt c (lutIndex c p))
  exact ⟨(le_min ha hb).trans hlow, hhigh.trans (max_le ha' hb')⟩

/-- Settles O31: both entries exist because index and neighbour are inside the table; the rational floor is the integer
division of `lutRead_of_linear`. -/
theorem lutReadIsTheInterpolatedEntry : Obligations.LutReadIsTheInterpolatedEntry := by
  intro c p hp
  refine ⟨lutEntry c (lutIndex c p), lutEntry c (lutNext c (lutIndex c p)), lutInit_getElem? (lutIndex_lt c hp),
    lutInit_getElem? (lutNext_lt c _), lutRead_of_none p, fun h => ?_, lutRead_range c hp⟩
  rw [lutRead_of_linear p h]
  have hfloor := Rat.floor_intCast_div_natCast
    ((lutEntry c (lutNext c (lutIndex c p)) - lutEntry c (lutIndex c p)) * (lutFrac c p : ℤ)) (2 ^ c.fracW)
  push_cast at hfloor
  exact congrArg _ hfloor.symm

/-! ### The response word (R15) -/

/-- The four fields do not overlap, so the word is their sum. -/
theorem responseFields_toNat (err : BitVec 1) (ecode : BitVec 3) (valid : BitVec 1) (data : BitVec 48) :
    (responseFields err ecode valid data).toNat =
      err.toNat * 2 ^ 63 + (ecode.toNat * 2 ^ 60 + (valid.toNat * 2 ^ 59 + data.toNat)) := by
  have herr := err.isLt
  have hecode := ecode.isLt
  have hvalid := valid.isLt
  have hdata := data.isLt
  have hv : valid.toNat <<< 59 ||| data.toNat = valid.toNat <<< 59 + data.toNat :=
    (Nat.shiftLeft_add_eq_or_of_lt (by omega) _).symm
  have hc : ecode.toNat <<< 60 ||| (valid.toNat <<< 59 + data.toNat)
      = ecode.toNat <<< 60 + (valid.toNat <<< 59 + data.toNat) :=
    (Nat.shiftLeft_add_eq_or_of_lt (by omega) _).symm
  have he : err.toNat <<< 63 ||| (ecode.toNat <<< 60 + (valid.toNat <<< 59 + data.toNat))
      = err.toNat <<< 63 + (ecode.toNat <<< 60 + (valid.toNat <<< 59 + data.toNat)) :=
    (Nat.shiftLeft_add_eq_or_of_lt (by omega) _).symm
  simp only [responseFields, BitVec.toNat_or, BitVec.toNat_shiftLeft, BitVec.toNat_setWidth_of_le, Nat.reduceLeDiff,
    Nat.or_assoc]
  rw [Nat.mod_eq_of_lt (a := err.toNat <<< 63) (by omega), Nat.mod_eq_of_lt (a := ecode.toNat <<< 60) (by omega),
    Nat.mod_eq_of_lt (a := valid.toNat <<< 59) (by omega), hv, hc, he]
  simp only [Nat.shiftLeft_eq]

/-- Each field is read back, and bits 58:48 are zero. -/
theorem responseFields_extract (err : BitVec 1) (ecode : BitVec 3) (valid : BitVec 1) (data : BitVec 48) :
    (responseFields err ecode valid data).extractLsb' 63 1 = err
      ∧ (responseFields err ecode valid data).extractLsb' 60 3 = ecode
      ∧ (responseFields err ecode valid data).extractLsb' 59 1 = valid
      ∧ (responseFields err ecode valid data).extractLsb' 48 11 = 0#11
      ∧ (responseFields err ecode valid data).extractLsb' 0 48 = data := by
  have herr := err.isLt
  have hecode := ecode.isLt
  have hvalid := valid.isLt
  have hdata := data.isLt
  refine ⟨?_, ?_, ?_, ?_, ?_⟩ <;> apply BitVec.eq_of_toNat_eq <;>
    simp only [BitVec.extractLsb'_toNat, responseFields_toNat, Nat.shiftRight_eq_div_pow, BitVec.toNat_zero] <;> omega

theorem responseWord_okd (d : BitVec 48) : responseWord (.okd d) = 0x0800000000000000 + d.setWidth 64 := by
  have hd := d.isLt
  apply BitVec.eq_of_toNat_eq
  rw [responseWord, responseFields_toNat, BitVec.toNat_add, BitVec.toNat_setWidth]
  simp only [BitVec.reduceToNat]
  omega

/-- The fields of spec/00_scope.md R15 over the three constructors. -/
theorem responseWord_fields (r : Response) :
    (responseWord r).extractLsb' 48 11 = 0
      ∧ ((responseWord r).extractLsb' 60 3).toNat < 4
      ∧ ((responseWord r).extractLsb' 63 1 = 1 ↔ ∃ e, r = .err e)
      ∧ ((responseWord r).extractLsb' 59 1 = 1 ↔ ∃ d, r = .okd d)
      ∧ (∀ d, r = .okd d → (responseWord r).extractLsb' 0 48 = d)
      ∧ ((¬∃ d, r = .okd d) → (responseWord r).extractLsb' 0 48 = 0) := by
  cases r with
  | ok => simp [responseWord, responseFields_extract]
  | okd d => simp [responseWord, responseFields_extract]
  | err e => cases e <;> simp [responseWord, responseFields_extract, errorCodeBits]

/-! ### One response per command (R15, R16) -/

/-- `t` answers what `s` was asked: the command port is as it was and one response was emitted, never ERR(ILLEGAL), which
answers only words that are no command. -/
def Answers (s t : State) : Prop :=
  t.port = s.port ∧ ∃ r : Response, r ≠ .err .illegal ∧ t.out = s.out ++ [responseWord r]

/-- Responding from a state with the ports of `s` answers `s`, whatever registers were written before. -/
theorem answers_respond {s u : State} {r : Response} (hport : u.port = s.port) (hout : u.out = s.out)
    (hr : r ≠ .err .illegal) : Answers s (respond r u) :=
  ⟨hport, r, hr, by rw [respond_out, hout]⟩

theorem answers_raise {s : State} {e : ErrorCode} (he : e ≠ .illegal) : Answers s (raise e s) :=
  answers_respond rfl rfl (by simpa using he)

/-- The shape of the three setters that take a sample rate (spec/60_exceptions.md R252). -/
theorem answers_unless_zero {s u : State} (sr : BitVec 24) (hport : u.port = s.port) (hout : u.out = s.out) :
    Answers s (if sr = 0 then raise .badOperand s else respond .ok u) := by
  split
  · exact answers_raise (by decide)
  · exact answers_respond hport hout (by simp)

theorem answers_respondRegister (x : Option (BitVec 32)) (s : State) : Answers s (respondRegister x s) := by
  cases x with
  | none => exact answers_raise (by decide)
  | some v => exact answers_respond rfl rfl (by simp)

theorem parseByte_ports (b : BitVec 8) (s : State) : (parseByte b s).port = s.port ∧ (parseByte b s).out = s.out := by
  unfold parseByte parseStatusByte parseDataByte
  split
  · split <;> exact ⟨rfl, rfl⟩
  · split <;> exact ⟨rfl, rfl⟩

theorem answers_envelopeStep (s : State) : Answers s (envelopeStep s) := by
  unfold envelopeStep attackStep releaseStep
  split
  · exact answers_respond rfl rfl (by simp)
  · split
    · exact answers_raise (by decide)
    · exact answers_respond rfl rfl (by simp)
  · split
    · exact answers_raise (by decide)
    · exact answers_respond rfl rfl (by simp)

theorem answers_oscillatorStep (s : State) : Answers s (oscillatorStep s) := by
  unfold oscillatorStep
  split
  · exact answers_raise (by decide)
  · exact answers_respond rfl rfl (by simp)

/-- Every command's effect ends in one response. -/
theorem answers_commandEffect (i : Instr) (s : State) : Answers s (commandEffect i s) := by
  cases i
  case envStep => exact answers_envelopeStep s
  case oscStep => exact answers_oscillatorStep s
  case envRda | envRdr | oscRdd => exact answers_respondRegister _ s
  case midiParse b =>
    obtain ⟨hport, hout⟩ := parseByte_ports b s
    exact answers_respond hport hout (by simp)
  case envSeta | envSetr | oscSetsr => exact answers_unless_zero _ rfl rfl
  case rbPop | midiPop =>
    unfold commandEffect
    dsimp only
    split <;> exact answers_respond rfl rfl (by simp)
  all_goals exact answers_respond rfl rfl (by simp)

theorem exec_answers {i : Instr} {s t : State} (h : exec i s = .next t) : Answers s t := by
  obtain ⟨-, -, rfl⟩ := exec_eq_next h
  exact answers_commandEffect i s

/-- Settles O10: the words from the fields, the fields by constructor, one word per command by `exec_answers`. -/
theorem responseWordsAreTheOnesOfTheTable : Obligations.ResponseWordsAreTheOnesOfTheTable := by
  refine ⟨by decide, responseWord_okd, by decide, by decide, by decide, responseWord_fields, fun i s t h => ?_⟩
  obtain ⟨-, r, -, hout⟩ := exec_answers h
  exact ⟨r, hout⟩

end Sys2Proof.Machine
end

/-! ## Packed notes and reset values of spec/10_state.md (R44, R49) -/

section
namespace Sys2Proof.Machine

/-! ### The packed note (R44) -/

theorem noteKindCode_le_two (k : NoteKind) : noteKindCode k ≤ 2 := by cases k <;> decide

/-- The fields do not overlap and the kind is below 4, so nothing is lost in 16 bits. -/
theorem packNote_toNat (k : NoteKind) (pitch velocity : BitVec 7) :
    (packNote k pitch velocity).toNat = noteKindCode k * 2 ^ 14 + pitch.toNat * 2 ^ 7 + velocity.toNat := by
  have hk := noteKindCode_le_two k
  have hp := pitch.isLt
  have hv := velocity.isLt
  rw [packNote, BitVec.toNat_ofNat, Nat.mod_eq_of_lt (by omega)]

theorem packNote_kind_toNat (k : NoteKind) (pitch velocity : BitVec 7) :
    ((packNote k pitch velocity).extractLsb' 14 2).toNat = noteKindCode k := by
  have hk := noteKindCode_le_two k
  have hp := pitch.isLt
  have hv := velocity.isLt
  rw [BitVec.extractLsb'_toNat, packNote_toNat, Nat.shiftRight_eq_div_pow]
  omega

theorem packNote_kind_ne_three (k : NoteKind) (pitch velocity : BitVec 7) :
    (packNote k pitch velocity).extractLsb' 14 2 ≠ 3 := by
  intro h
  have hcode : noteKindCode k = 3 := by rw [← packNote_kind_toNat k pitch velocity, h]; rfl
  have hk := noteKindCode_le_two k
  omega

@[simp] theorem packNote_pitch (k : NoteKind) (pitch velocity : BitVec 7) :
    (packNote k pitch velocity).extractLsb' 7 7 = pitch := by
  have hp := pitch.isLt
  have hv := velocity.isLt
  apply BitVec.eq_of_toNat_eq
  rw [BitVec.extractLsb'_toNat, packNote_toNat, Nat.shiftRight_eq_div_pow]
  omega

@[simp] theorem packNote_velocity (k : NoteKind) (pitch velocity : BitVec 7) :
    (packNote k pitch velocity).extractLsb' 0 7 = velocity := by
  have hv := velocity.isLt
  apply BitVec.eq_of_toNat_eq
  rw [BitVec.extractLsb'_toNat, packNote_toNat, Nat.shiftRight_zero]
  omega

/-! ### The class of a status byte (spec/44_midi.md R222) -/

theorem highNibble_toNat (b : BitVec 8) : (highNibble b).toNat = b.toNat / 16 := by
  have hb := b.isLt
  rw [highNibble, BitVec.extractLsb'_toNat, Nat.shiftRight_eq_div_pow]
  omega

/-- The class table over the value of the high nibble; it holds of data bytes too, which have no class. -/
theorem statusClass_eq (b : BitVec 8) :
    statusClass b =
      if b.toNat / 16 = 0x8 then some .noteOff
      else if b.toNat / 16 = 0x9 then some .noteOn
      else if b.toNat / 16 ∈ [0xA, 0xB, 0xE] then some .other
      else none := by
  simp only [statusClass, ← BitVec.toNat_inj, highNibble_toNat, List.mem_cons, List.not_mem_nil, or_false,
    BitVec.reduceToNat]

/-- Settles O46: the fields by `packNote_toNat`, the class table by `statusClass_eq`. -/
theorem notesPackKindPitchAndVelocity : Obligations.NotesPackKindPitchAndVelocity := by
  refine ⟨fun k pitch velocity => ⟨?_, packNote_kind_ne_three k pitch velocity, packNote_pitch k pitch velocity,
    packNote_velocity k pitch velocity⟩, by decide, fun b _ => statusClass_eq b⟩
  rw [packNote_toNat]
  cases k <;> rfl

/-! ### The reset values (R49) -/

theorem registersAtReset_resetWith (c : Config) : RegistersAtReset (State.resetWith c) := by
  simp [RegistersAtReset, State.resetWith, RingBuf.powerOn]

theorem registersAtReset_clearRegisters (s : State) : RegistersAtReset (clearRegisters s) := by
  simp [RegistersAtReset]

/-- A response writes no register. -/
@[simp] theorem registersAtReset_respond (r : Response) (s : State) :
    RegistersAtReset (respond r s) ↔ RegistersAtReset s := by
  simp [RegistersAtReset]

/-- A step with the reset input at the head of the port takes it. -/
theorem step_of_port_reset {s : State} {rest : List Input} (h : s.port = .reset :: rest) :
    step s = resetInput (withPort rest s) := by
  simp only [step, h]

theorem resetInput_eq_next {s t : State} (h : resetInput s = .next t) : t = clearRegisters s := by
  obtain ⟨-, h⟩ := whenLegal_eq_next h
  exact (Host.Outcome.next.inj h).symm

/-- Settles O55: each of the three resets ends in `State.resetWith` or in `clearRegisters`. -/
theorem resetValuesAreTheOnesOfTheTable : Obligations.ResetValuesAreTheOnesOfTheTable := by
  refine ⟨registersAtReset_resetWith _, registersAtReset_resetWith, fun s t rest hport h => ?input, fun s t h => ?command⟩
  case input =>
    rw [step_of_port_reset hport] at h
    obtain rfl := resetInput_eq_next h
    exact registersAtReset_clearRegisters _
  case command =>
    obtain ⟨-, -, rfl⟩ := exec_eq_next h
    exact (registersAtReset_respond .ok _).mpr (registersAtReset_clearRegisters s)

end Sys2Proof.Machine
end

/-! ## The opcode map of spec/30_encoding.md (R90 to R94) -/

section
namespace Sys2Proof

/-! ### A command word as its three fields (R90) -/

/-- Equal words built from parts of equal width have equal parts. -/
theorem append_eq_append_iff {v w : ℕ} {a b : BitVec v} {c d : BitVec w} : a ++ c = b ++ d ↔ a = b ∧ c = d := by
  refine ⟨fun h => ⟨?high, ?low⟩, fun ⟨hab, hcd⟩ => hab ▸ hcd ▸ rfl⟩
  case high => simpa only [BitVec.extractLsb'_append_eq_left] using congrArg (BitVec.extractLsb' w v) h
  case low => simpa only [BitVec.extractLsb'_append_eq_right] using congrArg (BitVec.extractLsb' 0 w) h

/-- The three fields are the whole word. -/
theorem fields_append (cmd : CmdWord) : fieldOpcode cmd ++ fieldRsv cmd ++ fieldOpnd cmd = cmd := by
  have hhigh : fieldOpcode cmd ++ fieldRsv cmd = cmd.extractLsb' 48 16 :=
    BitVec.extractLsb'_append_extractLsb'_eq_extractLsb' rfl
  rw [hhigh]
  exact (BitVec.extractLsb'_append_extractLsb'_eq_extractLsb' rfl).trans BitVec.extractLsb'_eq_self

/-- A format's mask keeps the opcode, rsv and the must-be-zero bits of the operand field (R91). -/
theorem mask_eq_fields (f : Format) :
    f.mask = BitVec.allOnes 8 ++ BitVec.allOnes 8 ++ f.mustBeZero := by
  cases f <;> decide

/-- `(w AND mask) = match` read field by field: the row's opcode, rsv zero, no must-be-zero bit set. -/
theorem and_mask_eq_iff (cmd : CmdWord) (f : Format) (op : BitVec 8) :
    cmd &&& f.mask = op ++ 0#8 ++ 0#48
      ↔ fieldOpcode cmd = op ∧ fieldRsv cmd = 0 ∧ fieldOpnd cmd &&& f.mustBeZero = 0 := by
  have hand : cmd &&& f.mask = fieldOpcode cmd ++ fieldRsv cmd ++ (fieldOpnd cmd &&& f.mustBeZero) := by
    conv_lhs => rw [← fields_append cmd, mask_eq_fields]
    exact BitVec.and_append.trans (by rw [BitVec.and_append, BitVec.and_allOnes, BitVec.and_allOnes])
  rw [hand]
  exact append_eq_append_iff.trans (by rw [append_eq_append_iff, and_assoc]; rfl)

/-! ### What the decoder accepts (R94) -/

theorem mem_mnemonics (m : Mnemonic) : m ∈ mnemonics := by cases m <;> decide

@[simp] theorem mnemonicOf_opcode (m : Mnemonic) : mnemonicOf m.opcode = some m := by cases m <;> decide

/-- The opcode byte determines the command's name. -/
theorem mnemonicOf_eq_some_iff {op : BitVec 8} {m : Mnemonic} : mnemonicOf op = some m ↔ op = m.opcode := by
  refine ⟨fun h => ?_, fun h => h ▸ mnemonicOf_opcode m⟩
  unfold mnemonicOf at h
  have hop := List.find?_some h
  exact (beq_iff_eq.mp hop).symm

@[simp] theorem mnemonic_instr (m : Mnemonic) (cmd : CmdWord) : (m.instr cmd).mnemonic = m := by cases m <;> rfl

/-- The decoder accepts a word for one reason only: its opcode is listed, and rsv and the must-be-zero bits are zero. -/
theorem decode_eq_ok_iff {cmd : CmdWord} {i : Instr} :
    decode cmd = .ok i ↔
      ∃ m : Mnemonic, (fieldOpcode cmd = m.opcode ∧ fieldRsv cmd = 0 ∧ fieldOpnd cmd &&& m.format.mustBeZero = 0)
        ∧ m.instr cmd = i := by
  simp only [← mnemonicOf_eq_some_iff]
  unfold decode
  cases mnemonicOf (fieldOpcode cmd) with
  | none => simp
  | some m =>
    by_cases hrsv : fieldRsv cmd = 0#8
    · by_cases hopnd : fieldOpnd cmd &&& m.format.mustBeZero = 0#48 <;> simp [hrsv, hopnd]
    · simp [hrsv]

/-- The name of an accepted word's command is the one its opcode gives. -/
theorem decode_mnemonic_iff {cmd : CmdWord} {m : Mnemonic} :
    (∃ i, decode cmd = .ok i ∧ i.mnemonic = m)
      ↔ fieldOpcode cmd = m.opcode ∧ fieldRsv cmd = 0 ∧ fieldOpnd cmd &&& m.format.mustBeZero = 0 := by
  constructor
  · rintro ⟨i, hdecode, rfl⟩
    obtain ⟨m, hfields, rfl⟩ := decode_eq_ok_iff.mp hdecode
    rwa [mnemonic_instr]
  · intro hfields
    exact ⟨m.instr cmd, decode_eq_ok_iff.mpr ⟨m, hfields, rfl⟩, mnemonic_instr m cmd⟩

/-! ### The rows of the table (R93) -/

/-- The row a command's opcode and format give it. -/
def Mnemonic.row (m : Mnemonic) : OpcodeRow := ⟨m, m.opcode ++ 0#8 ++ 0#48, m.format.mask⟩

/-- The table copied from the spec agrees with the opcodes and formats the decoder reads. -/
theorem opcodeTable_eq_rows : opcodeTable = mnemonics.map Mnemonic.row := by decide

theorem mem_opcodeTable_iff {row : OpcodeRow} : row ∈ opcodeTable ↔ row = row.mnemonic.row := by
  rw [opcodeTable_eq_rows, List.mem_map]
  constructor
  · rintro ⟨m, -, rfl⟩
    rfl
  · intro h
    exact ⟨row.mnemonic, mem_mnemonics _, h.symm⟩

/-- A word matches a command's row exactly when the decoder reads that command from it. -/
theorem decode_iff_matches_row {row : OpcodeRow} (hrow : row ∈ opcodeTable) (cmd : CmdWord) :
    (∃ i, decode cmd = .ok i ∧ i.mnemonic = row.mnemonic) ↔ cmd &&& row.mask = row.pattern := by
  rw [mem_opcodeTable_iff.mp hrow]
  exact decode_mnemonic_iff.trans (and_mask_eq_iff cmd _ _).symm

/-- Two rows that match one word name the one command decoded from it, and a command has one row. -/
theorem row_eq_of_matches {r q : OpcodeRow} (hr : r ∈ opcodeTable) (hq : q ∈ opcodeTable) {cmd : CmdWord}
    (hrcmd : cmd &&& r.mask = r.pattern) (hqcmd : cmd &&& q.mask = q.pattern) : r = q := by
  obtain ⟨i, hi, hir⟩ := (decode_iff_matches_row hr cmd).mpr hrcmd
  obtain ⟨j, hj, hjq⟩ := (decode_iff_matches_row hq cmd).mpr hqcmd
  obtain rfl : i = j := Except.ok.inj (hi.symm.trans hj)
  rw [mem_opcodeTable_iff.mp hr, mem_opcodeTable_iff.mp hq, ← hir, ← hjq]

/-- Settles O3: a row's match is the decoder's test on the three fields, so rows are disjoint because decoding is a
function. -/
theorem decoderAcceptsExactlyTheOpcodeMap : Obligations.DecoderAcceptsExactlyTheOpcodeMap := by
  refine ⟨fun row hrow cmd => decode_iff_matches_row hrow cmd, fun i => ⟨i.mnemonic.row, ?_, rfl⟩,
    fun r hr q hq cmd => row_eq_of_matches hr hq⟩
  exact mem_opcodeTable_iff.mpr rfl

end Sys2Proof
end

/-! ## The SYS commands of spec/40_sys.md (R120, R121) and the frame of the two storages (spec/20_memory.md section 1) -/

section
namespace Sys2Proof.Machine

/-! ### SYS.NOP and SYS.RESET (R120, R121) -/

/-- Settles O17: the effect of SYS.NOP is its response. -/
theorem sysNopOnlyAnswersOk : Obligations.SysNopOnlyAnswersOk :=
  ⟨by decide, fun _ hlegal => exec_of_legal hlegal trivial⟩

/-- Settles O18: the effect of SYS.RESET is `clearRegisters`, then its response. -/
theorem sysResetWritesEveryRegister : Obligations.SysResetWritesEveryRegister :=
  ⟨by decide, fun _ hlegal => exec_of_legal hlegal trivial⟩

/-! ### What the ring-buffer rules store (spec/43_ringbuffer.md R191, R192) -/

/-- A push that is not dropped stores at the tail, also when it evicts: an eviction moves the head alone. -/
theorem ringPush_slots_of_kept {w cap : Nat} {p : Policy} {x : BitVec w} {r : RingBuf w}
    (h : ¬(r.size.toNat = cap ∧ p = .discard)) : (ringPush cap p x r).slots = memWrite r.slots r.tail.toNat x := by
  by_cases hfull : r.size.toNat = cap
  · cases p with
    | discard => exact absurd ⟨hfull, rfl⟩ h
    | overwrite => simp [ringPush_full_overwrite hfull]
  · simp [ringPush_of_room hfull]

theorem memRead_ringPush_of_ne_tail_or_dropped {w cap : Nat} {p : Policy} {x : BitVec w} {r : RingBuf w}
    (powerOn : Nat → BitVec w) {a : Nat} (h : a ≠ r.tail.toNat ∨ (r.size.toNat = cap ∧ p = .discard)) :
    memRead powerOn (ringPush cap p x r).slots a = memRead powerOn r.slots a := by
  by_cases hdrop : r.size.toNat = cap ∧ p = .discard
  · obtain ⟨hfull, rfl⟩ := hdrop
    rw [ringPush_full_discard hfull]
  · rw [ringPush_slots_of_kept hdrop]
    exact memRead_memWrite_other powerOn _ _ _ _ (h.resolve_right hdrop)

theorem ringPop_slots {w cap : Nat} {powerOn : Nat → BitVec w} {r r' : RingBuf w} {x : BitVec w}
    (h : ringPop cap powerOn r = some (x, r')) : r'.slots = r.slots := by
  by_cases hempty : r.size.toNat = 0
  · simp [ringPop_empty hempty] at h
  · rw [ringPop_nonempty hempty] at h
    obtain ⟨-, rfl⟩ := Prod.mk.inj (Option.some.inj h)
    exact ringEvict_slots cap r

/-! ### What the commands store -/

/-- Both storages are the same. -/
def SameSlots (s t : State) : Prop := t.rb0.slots = s.rb0.slots ∧ t.mq.slots = s.mq.slots

theorem sameSlots_respondRegister (x : Option (BitVec 32)) (s : State) : SameSlots s (respondRegister x s) := by
  cases x <;> exact ⟨rfl, rfl⟩

theorem sameSlots_envelopeStep (s : State) : SameSlots s (envelopeStep s) := by
  unfold envelopeStep attackStep releaseStep
  split
  · exact ⟨rfl, rfl⟩
  · split <;> exact ⟨rfl, rfl⟩
  · split <;> exact ⟨rfl, rfl⟩

theorem sameSlots_oscillatorStep (s : State) : SameSlots s (oscillatorStep s) := by
  unfold oscillatorStep
  split <;> exact ⟨rfl, rfl⟩

/-- The two commands left out are the only ones that call rb_push. -/
theorem sameSlots_commandEffect {i : Instr} (s : State) (hpush : ∀ w, i ≠ .rbPush w) (hparse : ∀ b, i ≠ .midiParse b) :
    SameSlots s (commandEffect i s) := by
  cases i
  case rbPush w => exact absurd rfl (hpush w)
  case midiParse b => exact absurd rfl (hparse b)
  case envStep => exact sameSlots_envelopeStep s
  case oscStep => exact sameSlots_oscillatorStep s
  case envRda | envRdr | oscRdd => exact sameSlots_respondRegister _ s
  case envSeta | envSetr | oscSetsr =>
    unfold commandEffect
    dsimp only
    split <;> exact ⟨rfl, rfl⟩
  case rbPop =>
    unfold commandEffect
    dsimp only
    split
    · exact ⟨rfl, rfl⟩
    · exact ⟨ringPop_slots ‹_›, rfl⟩
  case midiPop =>
    unfold commandEffect
    dsimp only
    split
    · exact ⟨rfl, rfl⟩
    · exact ⟨rfl, ringPop_slots ‹_›⟩
  all_goals exact ⟨rfl, rfl⟩

/-- A byte leaves RB0 alone, and changes MQ by at most one push, under DISCARD (spec/44_midi.md R220). -/
theorem parseByte_buffers (b : BitVec 8) (s : State) :
    (parseByte b s).rb0 = s.rb0
      ∧ ((parseByte b s).mq = s.mq ∨ ∃ n, (parseByte b s).mq = ringPush s.cfg.mqCap .discard n s.mq) := by
  unfold parseByte parseStatusByte parseDataByte
  split
  · split <;> exact ⟨rfl, .inl rfl⟩
  · split
    · exact ⟨rfl, .inl rfl⟩
    · exact ⟨rfl, .inl rfl⟩
    · exact ⟨rfl, .inr ⟨_, rfl⟩⟩

theorem memRead_parseByte_mq_of_ne_tail_or_full (b : BitVec 8) {s : State} {a : Nat}
    (h : a ≠ s.mq.tail.toNat ∨ s.mq.size.toNat = s.cfg.mqCap) :
    memRead Config.mqPowerOn (parseByte b s).mq.slots a = memRead Config.mqPowerOn s.mq.slots a := by
  obtain ⟨-, hmq | ⟨n, hmq⟩⟩ := parseByte_buffers b s
  · rw [hmq]
  · rw [hmq]
    exact memRead_ringPush_of_ne_tail_or_dropped _ (h.imp_right fun hfull => ⟨hfull, rfl⟩)

/-- Settles O43: RB.PUSH is one `ringPush` on RB0, MIDI.PARSE at most one on MQ, and every other command keeps both
storages. -/
theorem onlyTheTailSlotIsWritten : Obligations.OnlyTheTailSlotIsWritten := by
  intro i s t h a
  obtain ⟨-, -, rfl⟩ := exec_eq_next h
  by_cases hpush : ∃ w, i = .rbPush w
  · obtain ⟨w, rfl⟩ := hpush
    refine ⟨fun hne => absurd rfl (hne w), memRead_ringPush_of_ne_tail_or_dropped _, fun w' hw hkept => ?stored,
      fun _ => rfl, fun _ => rfl⟩
    case stored =>
      obtain rfl := Instr.rbPush.inj hw
      rw [commandEffect, respond_rb0, ringPush_slots_of_kept hkept, memRead_memWrite_same]
  by_cases hparse : ∃ b, i = .midiParse b
  · obtain ⟨b, rfl⟩ := hparse
    have hrb0 : (commandEffect (.midiParse b) s).rb0 = s.rb0 := (parseByte_buffers b s).1
    exact ⟨fun _ => by rw [hrb0], fun _ => by rw [hrb0], fun w hw => absurd ⟨w, hw⟩ hpush, fun hne => absurd rfl (hne b),
      memRead_parseByte_mq_of_ne_tail_or_full b⟩
  · obtain ⟨hrb0, hmq⟩ := sameSlots_commandEffect s (not_exists.mp hpush) (not_exists.mp hparse)
    exact ⟨fun _ => by rw [hrb0], fun _ => by rw [hrb0], fun w hw => absurd ⟨w, hw⟩ hpush, fun _ => by rw [hmq],
      fun _ => by rw [hmq]⟩

end Sys2Proof.Machine
end

/-! ## The ENV commands of spec/41_envelope.md (R130 to R138) -/

section
namespace Sys2Proof

/-! ### Command words as sums (spec/30_encoding.md R90, R91) -/

/-- The opcode byte lies above the operand field, so the word is their sum. -/
theorem encode_eq_add (i : Instr) :
    encode i = (i.mnemonic.opcode.setWidth 64 <<< 56) + BitVec.ofNat 64 i.opnd.toNat := by
  have hdisjoint : (i.mnemonic.opcode.setWidth 64 <<< 56) &&& i.opnd.setWidth 64 = 0#64 := by
    apply BitVec.eq_of_getLsbD_eq
    intro k _
    rcases Nat.lt_or_ge k 56 with hlow | hhigh
    · simp [hlow]
    · simp [BitVec.getLsbD_of_ge i.opnd k (by omega)]
  rw [encode, BitVec.ofNat_toNat, BitVec.add_eq_or_of_and_eq_zero _ _ hdisjoint]

/-- Format T: the time operand lies above the sample rate. -/
theorem formatT_opnd_toNat (t sr : BitVec 24) :
    ((t.setWidth 48 <<< 24) ||| sr.setWidth 48).toNat = t.toNat * 2 ^ 24 + sr.toNat := by
  have ht := t.isLt
  have hsr := sr.isLt
  have hor : t.toNat <<< 24 ||| sr.toNat = t.toNat <<< 24 + sr.toNat :=
    (Nat.shiftLeft_add_eq_or_of_lt hsr _).symm
  simp only [BitVec.toNat_or, BitVec.toNat_shiftLeft, BitVec.toNat_setWidth_of_le, Nat.reduceLeDiff]
  rw [Nat.mod_eq_of_lt (by omega), hor, Nat.shiftLeft_eq]

/-- The word of a command of format T over its opcode's base word. -/
theorem encode_of_formatT {i : Instr} {base : CmdWord} (m : Mnemonic) (t sr : BitVec 24) (hm : i.mnemonic = m)
    (hopnd : i.opnd = (t.setWidth 48 <<< 24) ||| sr.setWidth 48) (hbase : m.opcode.setWidth 64 <<< 56 = base) :
    encode i = base + BitVec.ofNat 64 (t.toNat * 2 ^ 24 + sr.toNat) := by
  rw [encode_eq_add, hopnd, formatT_opnd_toNat, hm, hbase]

end Sys2Proof

namespace Sys2Proof.Machine

/-! ### ENV_UP and ENV_DOWN (spec/00_scope.md R10, R11) -/

theorem envUp_of_lt {o r : Nat} (h : o + r < ONE) : envUp o r = (o + r, false) := if_neg (by omega)

theorem envUp_of_le {o r : Nat} (h : ONE ≤ o + r) : envUp o r = (ONE, true) := if_pos h

theorem envDown_of_lt {o r : Nat} (h : r < o) : envDown o r = (o - r, false) := if_neg (by omega)

theorem envDown_of_le {o r : Nat} (h : o ≤ r) : envDown o r = (0, true) := if_pos h

/-! ### Reading a register (R137, R138) -/

theorem respondRegister_of_none {x : Option (BitVec 32)} (h : x = none) (s : State) :
    respondRegister x s = respond (.err .unset) s := by
  rw [h]
  rfl

theorem respondRegister_of_some {x : Option (BitVec 32)} {v : BitVec 32} (h : x = some v) (s : State) :
    respondRegister x s = respond (.okd (BitVec.ofNat 48 v.toNat)) s := by
  rw [h, respondRegister, BitVec.ofNat_toNat]

/-! ### The response of ENV.STEP and ENV.STAT (R131, R136) -/

/-- In a known phase the data is a sum. -/
theorem respondEnv_of_phase {s : State} {p : EnvPhase} (hphase : s.envPhase = p) :
    respondEnv s = respond (.okd (BitVec.ofNat 48 (envPhaseCode p * 2 ^ 32 + s.envOut.toNat))) s := by
  rw [respondEnv, envData, hphase]

/-! ### The envelope moved to a phase and an output -/

/-- The state with its envelope in phase `p` at output `n`. -/
def envelopeAt (p : EnvPhase) (n : Nat) (s : State) : State := { s with envPhase := p, envOut := BitVec.ofNat 32 n }

@[simp] theorem envelopeAt_envPhase (p : EnvPhase) (n : Nat) (s : State) : (envelopeAt p n s).envPhase = p := rfl

theorem envelopeAt_envOut_toNat (p : EnvPhase) {n : Nat} (hn : n < 2 ^ 32) (s : State) :
    (envelopeAt p n s).envOut.toNat = n :=
  (BitVec.toNat_ofNat _ _).trans (Nat.mod_eq_of_lt hn)

/-- The response is read from the moved envelope: its data is made of `p` and `n`. -/
theorem respondEnv_envelopeAt (p : EnvPhase) {n : Nat} (hn : n < 2 ^ 32) (s : State) :
    respondEnv (envelopeAt p n s) =
      { s with
        envPhase := p
        envOut := BitVec.ofNat 32 n
        out := s.out ++ [responseWord (.okd (BitVec.ofNat 48 (envPhaseCode p * 2 ^ 32 + n)))] } := by
  rw [respondEnv, envData, envelopeAt_envPhase, envelopeAt_envOut_toNat p hn]
  rfl

theorem envelope_of_respondEnv_envelopeAt (p : EnvPhase) {n : Nat} (hn : n < 2 ^ 32) (s : State) :
    (respondEnv (envelopeAt p n s)).envPhase = p ∧ (respondEnv (envelopeAt p n s)).envOut.toNat = n :=
  ⟨rfl, envelopeAt_envOut_toNat p hn s⟩

/-! ### ENV.STEP, one equation per row of R130 and per error of R131 -/

section
variable {s : State}

theorem exec_envStep (hlegal : stateLegal s = true) : exec .envStep s = .next (envelopeStep s) :=
  exec_of_legal hlegal trivial

theorem envelopeStep_of_idle (hphase : s.envPhase = .idle) : envelopeStep s = respondEnv s := by
  simp only [envelopeStep, hphase]

theorem envelopeStep_of_attack_unset (hphase : s.envPhase = .attack) (hrate : s.envArate = none) :
    envelopeStep s = raise .unset s := by
  simp only [envelopeStep, attackStep, hphase, hrate]

theorem envelopeStep_of_attack_lt {a : BitVec 32} (hphase : s.envPhase = .attack) (hrate : s.envArate = some a)
    (h : s.envOut.toNat + a.toNat < ONE) :
    envelopeStep s = respondEnv (envelopeAt .attack (s.envOut.toNat + a.toNat) s) := by
  simp only [envelopeStep, attackStep, envelopeAt, hphase, hrate, envUp_of_lt h, Bool.false_eq_true, if_false]

theorem envelopeStep_of_attack_le {a : BitVec 32} (hphase : s.envPhase = .attack) (hrate : s.envArate = some a)
    (h : ONE ≤ s.envOut.toNat + a.toNat) :
    envelopeStep s = respondEnv (envelopeAt .release ONE s) := by
  simp only [envelopeStep, attackStep, envelopeAt, hphase, hrate, envUp_of_le h, if_true]

theorem envelopeStep_of_release_unset (hphase : s.envPhase = .release) (hrate : s.envRrate = none) :
    envelopeStep s = raise .unset s := by
  simp only [envelopeStep, releaseStep, hphase, hrate]

theorem envelopeStep_of_release_lt {r : BitVec 32} (hphase : s.envPhase = .release) (hrate : s.envRrate = some r)
    (h : r.toNat < s.envOut.toNat) :
    envelopeStep s = respondEnv (envelopeAt .release (s.envOut.toNat - r.toNat) s) := by
  simp only [envelopeStep, releaseStep, envelopeAt, hphase, hrate, envDown_of_lt h, Bool.false_eq_true, if_false]

theorem envelopeStep_of_release_le {r : BitVec 32} (hphase : s.envPhase = .release) (hrate : s.envRrate = some r)
    (h : s.envOut.toNat ≤ r.toNat) :
    envelopeStep s = respondEnv (envelopeAt .idle 0 s) := by
  simp only [envelopeStep, releaseStep, envelopeAt, hphase, hrate, envDown_of_le h, if_true]

end

/-- A decrement cannot leave the register's range. -/
theorem envOut_sub_lt (s : State) (n : Nat) : s.envOut.toNat - n < 2 ^ 32 :=
  (Nat.sub_le _ _).trans_lt s.envOut.isLt

theorem ONE_lt_two_pow_32 : ONE < 2 ^ 32 := by decide

/-! ### The commands that leave the envelope alone -/

/-- Phase and output are the same; the rates may differ. -/
def SameEnvelope (s t : State) : Prop := t.envPhase = s.envPhase ∧ t.envOut = s.envOut

theorem sameEnvelope_respondRegister (x : Option (BitVec 32)) (s : State) : SameEnvelope s (respondRegister x s) := by
  cases x <;> exact ⟨rfl, rfl⟩

theorem sameEnvelope_oscillatorStep (s : State) : SameEnvelope s (oscillatorStep s) := by
  unfold oscillatorStep
  split <;> exact ⟨rfl, rfl⟩

theorem sameEnvelope_parseByte (b : BitVec 8) (s : State) : SameEnvelope s (parseByte b s) := by
  unfold parseByte parseStatusByte parseDataByte
  split
  · split <;> exact ⟨rfl, rfl⟩
  · split <;> exact ⟨rfl, rfl⟩

/-- The rate setters are among them: they write a rate and neither phase nor output (R133, R135). -/
theorem sameEnvelope_commandEffect {i : Instr} (s : State) (hstep : i ≠ .envStep) (hgate : i ≠ .envGate)
    (hreset : i ≠ .sysReset) : SameEnvelope s (commandEffect i s) := by
  cases i
  case envStep => exact absurd rfl hstep
  case envGate => exact absurd rfl hgate
  case sysReset => exact absurd rfl hreset
  case oscStep => exact sameEnvelope_oscillatorStep s
  case envRda | envRdr | oscRdd => exact sameEnvelope_respondRegister _ s
  case midiParse b => exact sameEnvelope_parseByte b s
  case envSeta | envSetr | oscSetsr | rbPop | midiPop =>
    unfold commandEffect
    dsimp only
    split <;> exact ⟨rfl, rfl⟩
  all_goals exact ⟨rfl, rfl⟩

/-! ### The obligations -/

/-- Settles O25: every row but ENV.GATE's is one equation of `envelopeStep`, and `sameEnvelope_commandEffect` says that
there are no others. -/
theorem envelopeTransitionsAreTheTable : Obligations.EnvelopeTransitionsAreTheTable := by
  intro i s t ⟨_, hidle, _⟩ hexec hreset
  obtain ⟨-, -, rfl⟩ := exec_eq_next hexec
  refine ⟨fun hstep hgate => sameEnvelope_commandEffect s hstep hgate hreset, ?gate, ?idle, ?attack, ?release,
    ?attackUnset, ?releaseUnset⟩
  case gate =>
    rintro rfl
    exact ⟨rfl, rfl⟩
  case idle =>
    rintro rfl hphase
    rw [commandEffect, envelopeStep_of_idle hphase]
    exact ⟨hphase, hidle hphase⟩
  case attack =>
    rintro rfl hphase a hrate
    refine ⟨fun hlt => ?_, fun hle => ?_⟩
    · rw [commandEffect, envelopeStep_of_attack_lt hphase hrate hlt]
      exact envelope_of_respondEnv_envelopeAt _ (hlt.trans ONE_lt_two_pow_32) s
    · rw [commandEffect, envelopeStep_of_attack_le hphase hrate hle]
      exact envelope_of_respondEnv_envelopeAt _ ONE_lt_two_pow_32 s
  case release =>
    rintro rfl hphase r hrate
    refine ⟨fun hlt => ?_, fun hle => ?_⟩
    · rw [commandEffect, envelopeStep_of_release_lt hphase hrate hlt]
      exact envelope_of_respondEnv_envelopeAt _ (envOut_sub_lt s _) s
    · rw [commandEffect, envelopeStep_of_release_le hphase hrate hle]
      exact envelope_of_respondEnv_envelopeAt _ (by decide) s
  case attackUnset =>
    rintro rfl hphase hrate
    rw [commandEffect, envelopeStep_of_attack_unset hphase hrate]
    exact ⟨hphase, rfl⟩
  case releaseUnset =>
    rintro rfl hphase hrate
    rw [commandEffect, envelopeStep_of_release_unset hphase hrate]
    exact ⟨hphase, rfl⟩

/-- Settles O19: `exec_envStep` with the equation of each phase and case. -/
theorem envStepMakesOnePhaseEvaluation : Obligations.EnvStepMakesOnePhaseEvaluation := by
  refine ⟨by decide, fun s hlegal => ?_⟩
  rw [exec_envStep hlegal]
  refine ⟨fun hphase => ?idle, fun hphase hrate => ?attackUnset, fun a hphase hrate hlt => ?attackBelow,
    fun a hphase hrate hle => ?attackReached, fun hphase hrate => ?releaseUnset,
    fun r hphase hrate hlt => ?releaseAbove, fun r hphase hrate hle => ?releaseReached⟩
  case idle =>
    rw [envelopeStep_of_idle hphase, respondEnv_of_phase hphase, envPhaseCode, Nat.zero_mul, Nat.zero_add]
    rfl
  case attackUnset =>
    rw [envelopeStep_of_attack_unset hphase hrate]
    rfl
  case attackBelow =>
    rw [envelopeStep_of_attack_lt hphase hrate hlt, respondEnv_envelopeAt _ (hlt.trans ONE_lt_two_pow_32), hphase]
    rfl
  case attackReached =>
    rw [envelopeStep_of_attack_le hphase hrate hle, respondEnv_envelopeAt _ ONE_lt_two_pow_32]
    rfl
  case releaseUnset =>
    rw [envelopeStep_of_release_unset hphase hrate]
    rfl
  case releaseAbove =>
    rw [envelopeStep_of_release_lt hphase hrate hlt, respondEnv_envelopeAt _ (envOut_sub_lt s _), hphase]
    rfl
  case releaseReached =>
    rw [envelopeStep_of_release_le hphase hrate hle, respondEnv_envelopeAt _ (by decide)]
    rfl

/-- Settles O20: the effect of ENV.GATE writes the phase alone, which in ATTACK is no change. -/
theorem envGateEntersAttackAndKeepsTheOutput : Obligations.EnvGateEntersAttackAndKeepsTheOutput := by
  refine ⟨by decide, fun s hlegal => ?_⟩
  have hgate : exec .envGate s = .next { s with envPhase := .attack, out := s.out ++ [responseWord .ok] } :=
    exec_of_legal hlegal trivial
  refine ⟨hgate, fun hphase => ?_⟩
  rw [hgate, hphase]

/-- Settles O21: the word by `encode_of_formatT`, the operand check (R134) by the branches of the effect. -/
theorem envSetaSetsTheAttackRate : Obligations.EnvSetaSetsTheAttackRate := by
  refine fun t sr => ⟨encode_of_formatT .envSeta t sr rfl rfl (by decide), fun s hlegal => ?_⟩
  have hset : exec (.envSeta t sr) s = .next (commandEffect (.envSeta t sr) s) := exec_of_legal hlegal trivial
  rw [hset]
  exact ⟨fun hsr => congrArg Host.Outcome.next (if_neg hsr), fun hsr => congrArg Host.Outcome.next (if_pos hsr)⟩

/-- Settles O22: the word by `encode_of_formatT`, the operand check (R134) by the branches of the effect. -/
theorem envSetrSetsTheReleaseRate : Obligations.EnvSetrSetsTheReleaseRate := by
  refine fun t sr => ⟨encode_of_formatT .envSetr t sr rfl rfl (by decide), fun s hlegal => ?_⟩
  have hset : exec (.envSetr t sr) s = .next (commandEffect (.envSetr t sr) s) := exec_of_legal hlegal trivial
  rw [hset]
  exact ⟨fun hsr => congrArg Host.Outcome.next (if_neg hsr), fun hsr => congrArg Host.Outcome.next (if_pos hsr)⟩

/-- Settles O23: the effect of ENV.STAT is `respondEnv`, whose data `respondEnv_of_phase` gives phase by phase. -/
theorem envStatReadsPhaseAndOutput : Obligations.EnvStatReadsPhaseAndOutput := by
  refine ⟨by decide, fun s hlegal => ?_⟩
  have hstat : exec .envStat s = .next (respondEnv s) := exec_of_legal hlegal trivial
  rw [hstat]
  refine ⟨fun hidle => ?_, fun hattack => ?_, fun hrelease => ?_⟩
  · rw [respondEnv_of_phase hidle]
    rfl
  · rw [respondEnv_of_phase hattack]
    rfl
  · rw [respondEnv_of_phase hrelease]
    rfl

/-- Settles O24: both reads are `respondRegister` of their rate, set or UNSET. -/
theorem envRateReadsAnswerASetRate : Obligations.EnvRateReadsAnswerASetRate := by
  refine ⟨by decide, by decide, fun s hlegal => ?_⟩
  have hrda : exec .envRda s = .next (respondRegister s.envArate s) := exec_of_legal hlegal trivial
  have hrdr : exec .envRdr s = .next (respondRegister s.envRrate s) := exec_of_legal hlegal trivial
  rw [hrda, hrdr]
  exact ⟨fun a ha => congrArg Host.Outcome.next (respondRegister_of_some ha s),
    fun ha => congrArg Host.Outcome.next (respondRegister_of_none ha s),
    fun r hr => congrArg Host.Outcome.next (respondRegister_of_some hr s),
    fun hr => congrArg Host.Outcome.next (respondRegister_of_none hr s)⟩

end Sys2Proof.Machine
end

/-! ## The OSC commands of spec/42_oscillator.md (R161 to R168) and the independence of the units -/

section
namespace Sys2Proof

/-- The word of a command whose one operand fills the low bits of the operand field (formats S, W, I and B). -/
theorem encode_of_single_operand {i : Instr} {base : CmdWord} {k : Nat} (m : Mnemonic) (x : BitVec k) (hk : k ≤ 48)
    (hm : i.mnemonic = m) (hopnd : i.opnd = x.setWidth 48) (hbase : m.opcode.setWidth 64 <<< 56 = base) :
    encode i = base + x.setWidth 64 := by
  rw [encode_eq_add, hopnd, hm, hbase, BitVec.toNat_setWidth_of_le hk, BitVec.ofNat_toNat]

end Sys2Proof

namespace Sys2Proof.Machine

/-! ### What OSC.STEP computes with (R161) -/

/-- `y mod 2^32` is the two's complement image of `y`. -/
theorem sampleData_eq_ofInt (y : Int) : sampleData y = (BitVec.ofInt 32 y).setWidth 48 := by
  rw [sampleData, ← BitVec.ofNat_toNat, BitVec.toNat_ofInt]
  rfl

/-- PHASE_ADV is the addition of the phase register's width. -/
theorem ofNat_phaseAdv (p d : BitVec 32) : BitVec.ofNat 32 (phaseAdv p.toNat d.toNat) = p + d := by
  apply BitVec.eq_of_toNat_eq
  rw [BitVec.toNat_ofNat, phaseAdv, PH_W, Nat.mod_mod, BitVec.toNat_add]

/-- The response to OSC.STEP at phase `p`. -/
def sampleWord (c : Config) (p : Nat) : RspWord := responseWord (.okd ((BitVec.ofInt 32 (lutRead c p)).setWidth 48))

/-! ### Each OSC command from a legal state, case by case -/

section
variable {s : State}

theorem exec_oscStep_unset (hlegal : stateLegal s = true) (hdelta : s.oscDelta = none) :
    exec .oscStep s = .next (raise .unset s) := by
  rw [exec_of_legal (i := .oscStep) hlegal trivial, commandEffect, oscillatorStep, hdelta]

theorem exec_oscStep_set {d : BitVec 32} (hlegal : stateLegal s = true) (hdelta : s.oscDelta = some d) :
    exec .oscStep s =
      .next { s with oscPhase := s.oscPhase + d, out := s.out ++ [sampleWord s.cfg s.oscPhase.toNat] } := by
  rw [exec_of_legal (i := .oscStep) hlegal trivial, commandEffect, oscillatorStep, hdelta]
  dsimp only
  rw [sampleData_eq_ofInt, ofNat_phaseAdv]
  rfl

theorem exec_oscSetsr_zero (hlegal : stateLegal s = true) : exec (.oscSetsr 0) s = .next (raise .badOperand s) :=
  exec_of_legal hlegal trivial

theorem exec_oscSetsr_of_freq_unset {sr : BitVec 24} (hlegal : stateLegal s = true) (hsr : sr ≠ 0)
    (hfreq : s.oscFreq = none) : exec (.oscSetsr sr) s = .next (respond .ok { s with oscSr := some sr }) := by
  rw [exec_of_legal (i := .oscSetsr sr) hlegal trivial]
  simp only [commandEffect, if_neg hsr, hfreq]

theorem exec_oscSetsr_of_freq_set {sr : BitVec 24} {f : BitVec 32} (hlegal : stateLegal s = true) (hsr : sr ≠ 0)
    (hfreq : s.oscFreq = some f) :
    exec (.oscSetsr sr) s =
      .next (respond .ok { s with oscSr := some sr, oscDelta := some (deltaRegister f sr) }) := by
  rw [exec_of_legal (i := .oscSetsr sr) hlegal trivial]
  simp only [commandEffect, if_neg hsr, hfreq]

theorem exec_oscSetf_of_sr_unset (w : BitVec 32) (hlegal : stateLegal s = true) (hsr : s.oscSr = none) :
    exec (.oscSetf w) s = .next (respond .ok { s with oscFreq := some w }) := by
  rw [exec_of_legal (i := .oscSetf w) hlegal trivial]
  simp only [commandEffect, hsr]

theorem exec_oscSetf_of_sr_set (w : BitVec 32) {sr : BitVec 24} (hlegal : stateLegal s = true)
    (hsr : s.oscSr = some sr) :
    exec (.oscSetf w) s =
      .next (respond .ok { s with oscFreq := some w, oscDelta := some (deltaRegister w sr) }) := by
  rw [exec_of_legal (i := .oscSetf w) hlegal trivial]
  simp only [commandEffect, hsr]

end

/-- Settles O30: the two cases of the increment's set flag. -/
theorem oscStepReadsThenAdvances : Obligations.OscStepReadsThenAdvances :=
  ⟨by decide, fun _ hlegal => ⟨exec_oscStep_unset hlegal, fun _ => exec_oscStep_set hlegal⟩⟩

/-- Settles O33: the operand check (R163), then the two cases of the frequency's set flag (R162). -/
theorem oscSetsrSetsRateAndIncrement : Obligations.OscSetsrSetsRateAndIncrement := by
  refine fun sr => ⟨encode_of_single_operand .oscSetsr sr (by decide) rfl rfl (by decide), fun s hlegal =>
    ⟨?_, exec_oscSetsr_of_freq_unset hlegal, fun f => exec_oscSetsr_of_freq_set hlegal⟩⟩
  rintro rfl
  exact exec_oscSetsr_zero hlegal

/-- Settles O34: the two cases of the sample rate's set flag; no `w` is refused. -/
theorem oscSetfSetsFrequencyAndIncrement : Obligations.OscSetfSetsFrequencyAndIncrement :=
  fun w => ⟨encode_of_single_operand .oscSetf w (by decide) rfl rfl (by decide), fun _ hlegal =>
    ⟨exec_oscSetf_of_sr_unset w hlegal, fun _ => exec_oscSetf_of_sr_set w hlegal⟩⟩

/-- Settles O35: OSC.RDD is `respondRegister` of the increment, set or UNSET. -/
theorem oscReadsAnswerPhaseAndIncrement : Obligations.OscReadsAnswerPhaseAndIncrement := by
  refine ⟨by decide, by decide, fun s hlegal => ?_⟩
  have hstat : exec .oscStat s = .next (respond (.okd (s.oscPhase.setWidth 48)) s) := exec_of_legal hlegal trivial
  have hrdd : exec .oscRdd s = .next (respondRegister s.oscDelta s) := exec_of_legal hlegal trivial
  rw [hstat, hrdd, ← BitVec.ofNat_toNat]
  exact ⟨rfl, fun d hd => congrArg Host.Outcome.next (respondRegister_of_some hd s),
    fun hd => congrArg Host.Outcome.next (respondRegister_of_none hd s)⟩

/-! ### The table boundary (R167) -/

theorem lutEntry_eq_of_getElem? {c : Config} {i : Nat} {v : ℤ} (h : c.lutInit[i]? = some v) : lutEntry c i = v := by
  rw [lutEntry, List.getD_eq_getElem?_getD, h, Option.getD_some]

/-- On a table point the fraction is 0, so no part of the way to the neighbour is added. -/
theorem lutRead_table_point (c : Config) (idx : Nat) : lutRead c (idx * 2 ^ c.fracW) = lutEntry c idx := by
  have hindex : lutIndex c (idx * 2 ^ c.fracW) = idx := Nat.mul_div_cancel _ (by positivity)
  have hfrac : lutFrac c (idx * 2 ^ c.fracW) = 0 := Nat.mul_mod_left _ _
  cases h : c.oscInterp with
  | none => rw [lutRead_of_none _ h, hindex]
  | linear => rw [lutRead_of_linear _ h, hindex, hfrac, Nat.cast_zero, mul_zero, Int.zero_ediv, add_zero]

theorem lutIndex_of_last_segment {c : Config} {p : Nat} (hlow : (c.lutN - 1) * 2 ^ c.fracW ≤ p) (hp : p < 2 ^ 32) :
    lutIndex c p = c.lutN - 1 := by
  have hge : c.lutN - 1 ≤ lutIndex c p := (Nat.le_div_iff_mul_le (by positivity)).mpr hlow
  have hlt := lutIndex_lt c hp
  omega

theorem lutNext_last_of_clamp {c : Config} (h : c.oscEdge = .clamp) : lutNext c (c.lutN - 1) = c.lutN - 1 := by
  simp only [lutNext, h]
  omega

theorem lutNext_last_of_wrap {c : Config} (h : c.oscEdge = .wrap) : lutNext c (c.lutN - 1) = 0 := by
  have hN : 1 ≤ c.lutN := Nat.one_le_two_pow
  simp only [lutNext, h, Nat.sub_add_cancel hN, Nat.mod_self]

/-- Settles O32: `lutRead_between` in the last segment, whose neighbour is itself under CLAMP and entry 0 under WRAP. -/
theorem tableBoundaryIsConsistent : Obligations.TableBoundaryIsConsistent := by
  intro c last first hlast hfirst
  have hlastEntry : lutEntry c (c.lutN - 1) = last := lutEntry_eq_of_getElem? hlast
  have hfirstEntry : lutEntry c 0 = first := lutEntry_eq_of_getElem? hfirst
  refine ⟨fun idx v hv => (lutRead_table_point c idx).trans (lutEntry_eq_of_getElem? hv), fun p hlow hp => ?_⟩
  have hbetween := lutRead_between c p
  rw [lutIndex_of_last_segment hlow hp, hlastEntry] at hbetween
  refine ⟨fun _ hclamp => ?clamp, fun _ hwrap => ?wrap⟩
  case clamp =>
    rw [lutNext_last_of_clamp hclamp, hlastEntry, min_self, max_self] at hbetween
    exact le_antisymm hbetween.2 hbetween.1
  case wrap =>
    rwa [lutNext_last_of_wrap hwrap, hfirstEntry] at hbetween

/-! ### Period and drift (R168) -/

/-- The state after `k` OSC.STEP with increment `d`: the phase `k * d` further, and the samples at the phases on the way. -/
def afterOscSteps (d : BitVec 32) (k : Nat) (s : State) : State :=
  { s with
    oscPhase := BitVec.ofNat 32 (s.oscPhase.toNat + k * d.toNat)
    out :=
      s.out ++ (List.range k).map (fun j => sampleWord s.cfg ((s.oscPhase.toNat + j * d.toNat) % 2 ^ 32)) }

theorem afterOscSteps_zero (d : BitVec 32) (s : State) : afterOscSteps d 0 s = s := by
  simp [afterOscSteps]

/-- The phase `j` increments after the next one. -/
theorem phase_after_next (p d : BitVec 32) (j : Nat) :
    ((p + d).toNat + j * d.toNat) % 2 ^ 32 = (p.toNat + (j + 1) * d.toNat) % 2 ^ 32 := by
  rw [BitVec.toNat_add, Nat.mod_add_mod, add_one_mul, add_assoc, add_comm d.toNat]

/-- The first of `k + 1` steps, then the others. -/
theorem afterOscSteps_succ (d : BitVec 32) (k : Nat) (s : State) :
    afterOscSteps d k { s with oscPhase := s.oscPhase + d, out := s.out ++ [sampleWord s.cfg s.oscPhase.toNat] } =
      afterOscSteps d (k + 1) s := by
  have hphase : BitVec.ofNat 32 ((s.oscPhase + d).toNat + k * d.toNat)
      = BitVec.ofNat 32 (s.oscPhase.toNat + (k + 1) * d.toNat) := by
    apply BitVec.eq_of_toNat_eq
    rw [BitVec.toNat_ofNat, BitVec.toNat_ofNat, phase_after_next]
  have hfirst : (s.oscPhase.toNat + 0 * d.toNat) % 2 ^ 32 = s.oscPhase.toNat := by
    rw [zero_mul, add_zero, Nat.mod_eq_of_lt s.oscPhase.isLt]
  simp only [afterOscSteps, hphase, phase_after_next, List.range_succ_eq_map, List.map_cons, List.map_map,
    Function.comp_def, hfirst, List.append_assoc, List.singleton_append]

theorem execAll_oscStep {d : BitVec 32} (k : Nat) :
    ∀ {s : State}, stateLegal s = true → s.oscDelta = some d →
      execAll (List.replicate k .oscStep) s = .next (afterOscSteps d k s) := by
  induction k with
  | zero => exact fun {s} _ _ => congrArg Host.Outcome.next (afterOscSteps_zero d s).symm
  | succ k ih =>
    intro s hlegal hdelta
    rw [List.replicate_succ, execAll, exec_oscStep_set hlegal hdelta, ← afterOscSteps_succ]
    exact ih hlegal hdelta

/-- `n / gcd d n` increments of `d` are a whole number of turns. -/
theorem div_gcd_mul_mod (d n : Nat) : n / Nat.gcd d n * d % n = 0 := by
  apply Nat.mod_eq_zero_of_dvd
  rw [Nat.div_mul_right_comm (Nat.gcd_dvd_right d n), Nat.mul_div_assoc n (Nat.gcd_dvd_left d n)]
  exact Nat.dvd_mul_right _ _

/-- Below the sample rate the quotient of PHASE_DELTA fits the phase, so nothing is reduced. -/
theorem phaseDelta_of_lt {f s : Nat} (h : f < s * 2 ^ 16) : phaseDelta f s = f * 2 ^ 16 / s :=
  Nat.mod_eq_of_lt (Nat.div_lt_of_lt_mul (by rw [PH_W]; omega))

/-- Settles O38: `execAll_oscStep`, `div_gcd_mul_mod`, and the remainder of the division of PHASE_DELTA. -/
theorem phaseAfterManyStepsDoesNotDrift : Obligations.PhaseAfterManyStepsDoesNotDrift := by
  refine ⟨fun s d k hlegal hdelta => execAll_oscStep k hlegal hdelta, fun p d k _ => ?period, fun f s hs hf => ?drift⟩
  case period =>
    rw [add_mul, ← add_assoc, Nat.add_mod, div_gcd_mul_mod, add_zero, Nat.mod_mod]
  case drift =>
    rw [phaseDelta_of_lt hf]
    exact ⟨Nat.div_mul_le_self _ _, Nat.lt_div_mul_add hs⟩

/-! ### A command writes its own unit alone (spec/00_scope.md section 1) -/

/-- From `s` to `t` nothing but unit `u` changed; the ports are no unit. -/
def OnlyUnitChanged (u : Nat) (s t : State) : Prop :=
  (u ≠ 1 → SameEnv s t) ∧ (u ≠ 2 → SameOsc s t) ∧ (u ≠ 3 → s.rb0 = t.rb0) ∧ (u ≠ 4 → SameMidi s t)

section
variable (u : Nat) (r : Response) (s : State)

theorem onlyUnitChanged_respond : OnlyUnitChanged u s (respond r s) :=
  ⟨fun _ => ⟨rfl, rfl, rfl, rfl⟩, fun _ => ⟨rfl, rfl, rfl, rfl⟩, fun _ => rfl, fun _ => ⟨rfl, rfl, rfl, rfl⟩⟩

theorem onlyUnitChanged_raise (e : ErrorCode) : OnlyUnitChanged u s (raise e s) := onlyUnitChanged_respond u (.err e) s

theorem onlyUnitChanged_respondRegister (x : Option (BitVec 32)) : OnlyUnitChanged u s (respondRegister x s) := by
  cases x with
  | none => exact onlyUnitChanged_raise u s .unset
  | some v => exact onlyUnitChanged_respond u _ s

theorem onlyUnitChanged_env (phase : EnvPhase) (o : BitVec 32) (arate rrate : Option (BitVec 32)) :
    OnlyUnitChanged 1 s
      (respond r { s with envPhase := phase, envOut := o, envArate := arate, envRrate := rrate }) :=
  ⟨fun h => absurd rfl h, fun _ => ⟨rfl, rfl, rfl, rfl⟩, fun _ => rfl, fun _ => ⟨rfl, rfl, rfl, rfl⟩⟩

theorem onlyUnitChanged_osc (phase : BitVec 32) (sr : Option (BitVec 24)) (freq delta : Option (BitVec 32)) :
    OnlyUnitChanged 2 s (respond r { s with oscPhase := phase, oscSr := sr, oscFreq := freq, oscDelta := delta }) :=
  ⟨fun _ => ⟨rfl, rfl, rfl, rfl⟩, fun h => absurd rfl h, fun _ => rfl, fun _ => ⟨rfl, rfl, rfl, rfl⟩⟩

theorem onlyUnitChanged_rb (b : RingBuf 32) : OnlyUnitChanged 3 s (respond r { s with rb0 := b }) :=
  ⟨fun _ => ⟨rfl, rfl, rfl, rfl⟩, fun _ => ⟨rfl, rfl, rfl, rfl⟩, fun h => absurd rfl h,
    fun _ => ⟨rfl, rfl, rfl, rfl⟩⟩

theorem onlyUnitChanged_midi (state : ParserState) (status : BitVec 8) (data1 : BitVec 7) (q : RingBuf 16) :
    OnlyUnitChanged 4 s (respond r { s with mpState := state, mpStatus := status, mpData1 := data1, mq := q }) :=
  ⟨fun _ => ⟨rfl, rfl, rfl, rfl⟩, fun _ => ⟨rfl, rfl, rfl, rfl⟩, fun _ => rfl, fun h => absurd rfl h⟩

end

theorem onlyUnitChanged_envelopeStep (s : State) : OnlyUnitChanged 1 s (envelopeStep s) := by
  unfold envelopeStep attackStep releaseStep
  split
  · exact onlyUnitChanged_respond 1 _ s
  · split
    · exact onlyUnitChanged_raise 1 s .unset
    · exact onlyUnitChanged_env _ s _ _ _ _
  · split
    · exact onlyUnitChanged_raise 1 s .unset
    · exact onlyUnitChanged_env _ s _ _ _ _

theorem onlyUnitChanged_oscillatorStep (s : State) : OnlyUnitChanged 2 s (oscillatorStep s) := by
  unfold oscillatorStep
  split
  · exact onlyUnitChanged_raise 2 s .unset
  · exact onlyUnitChanged_osc _ s _ _ _ _

/-- The byte's five cases (spec/44_midi.md R220) write the parser and MQ. -/
theorem onlyUnitChanged_parseByte (r : Response) (b : BitVec 8) (s : State) :
    OnlyUnitChanged 4 s (respond r (parseByte b s)) := by
  unfold parseByte parseStatusByte parseDataByte
  split
  · split <;> exact onlyUnitChanged_midi r s _ _ _ _
  · split <;> exact onlyUnitChanged_midi r s _ _ _ _

/-- A setter that answers ERR(BAD_OPERAND) to a sample rate of 0 changes what it changes otherwise. -/
theorem onlyUnitChanged_unless_zero {u : Nat} {s t : State} (sr : BitVec 24) (h : OnlyUnitChanged u s t) :
    OnlyUnitChanged u s (if sr = 0 then raise .badOperand s else t) := by
  split
  · exact onlyUnitChanged_raise u s .badOperand
  · exact h

theorem onlyUnitChanged_commandEffect {i : Instr} (s : State) (hreset : i ≠ .sysReset) :
    OnlyUnitChanged (unitOf i) s (commandEffect i s) := by
  cases i
  all_goals dsimp only [unitOf, Instr.mnemonic]
  case sysReset => exact absurd rfl hreset
  case envStep => exact onlyUnitChanged_envelopeStep s
  case oscStep => exact onlyUnitChanged_oscillatorStep s
  case midiParse b => exact onlyUnitChanged_parseByte .ok b s
  case envGate => exact onlyUnitChanged_env _ s _ _ _ _
  case envSeta | envSetr => exact onlyUnitChanged_unless_zero _ (onlyUnitChanged_env _ s _ _ _ _)
  case oscSetsr => exact onlyUnitChanged_unless_zero _ (onlyUnitChanged_osc _ s _ _ _ _)
  case oscSetf => exact onlyUnitChanged_osc _ s _ _ _ _
  case rbPush | rbClear => exact onlyUnitChanged_rb _ s _
  case rbPop =>
    unfold commandEffect
    dsimp only
    split
    · exact onlyUnitChanged_respond _ _ s
    · exact onlyUnitChanged_rb _ s _
  case midiPop =>
    unfold commandEffect
    dsimp only
    split
    · exact onlyUnitChanged_respond _ _ s
    · exact onlyUnitChanged_midi _ s _ _ _ _
  case envRda | envRdr | oscRdd => exact onlyUnitChanged_respondRegister _ s _
  all_goals exact onlyUnitChanged_respond _ _ s

/-- Settles O59: a command that completes has the effect `onlyUnitChanged_commandEffect` speaks of. -/
theorem unitsAreIndependent : Obligations.UnitsAreIndependent := by
  intro i s t h hreset
  obtain ⟨-, -, rfl⟩ := exec_eq_next h
  exact onlyUnitChanged_commandEffect s hreset

end Sys2Proof.Machine
end

/-! ## The RB commands of spec/43_ringbuffer.md (R191 to R197) -/

section
namespace Sys2Proof.Machine

/-! ### A push that evicts (R191) -/

/-- The buffer was not empty, so the eviction's decrement and the append's increment of the size cancel. -/
theorem ringAppend_ringEvict {w cap : Nat} (x : BitVec w) {r : RingBuf w} (h : r.size.toNat ≠ 0) :
    ringAppend cap x (ringEvict cap r) =
      { head := advance cap r.head
        tail := advance cap r.tail
        size := r.size
        slots := memWrite r.slots r.tail.toNat x } := by
  have hlt := r.size.isLt
  have hsize : (ringAppend cap x (ringEvict cap r)).size = r.size := by
    apply BitVec.eq_of_toNat_eq
    rw [ringAppend_size, ringEvict_size, BitVec.toNat_ofNat, BitVec.toNat_ofNat]
    omega
  rw [← hsize]
  rfl

/-! ### Each RB command from a legal state, case by case -/

section
variable {s : State}

theorem exec_rbPush (w : BitVec 32) (hlegal : stateLegal s = true) :
    exec (.rbPush w) s = .next (respond .ok { s with rb0 := ringPush s.cfg.rb0Cap s.cfg.rb0Policy w s.rb0 }) :=
  exec_of_legal hlegal trivial

theorem exec_rbPush_of_room (w : BitVec 32) (hlegal : stateLegal s = true) (hroom : s.rb0.size.toNat ≠ s.cfg.rb0Cap) :
    exec (.rbPush w) s = .next (respond .ok { s with rb0 := ringAppend s.cfg.rb0Cap w s.rb0 }) := by
  rw [exec_rbPush w hlegal, ringPush_of_room hroom]

theorem exec_rbPush_full_discard (w : BitVec 32) (hlegal : stateLegal s = true)
    (hfull : s.rb0.size.toNat = s.cfg.rb0Cap) (hpolicy : s.cfg.rb0Policy = .discard) :
    exec (.rbPush w) s = .next (respond .ok s) := by
  rw [exec_rbPush w hlegal, hpolicy, ringPush_full_discard hfull]

theorem exec_rbPush_full_overwrite (w : BitVec 32) (hlegal : stateLegal s = true)
    (hfull : s.rb0.size.toNat = s.cfg.rb0Cap) (hpolicy : s.cfg.rb0Policy = .overwrite) :
    exec (.rbPush w) s =
      .next
        (respond .ok
          { s with
            rb0 :=
              { head := advance s.cfg.rb0Cap s.rb0.head
                tail := advance s.cfg.rb0Cap s.rb0.tail
                size := s.rb0.size
                slots := memWrite s.rb0.slots s.rb0.tail.toNat w } }) := by
  obtain ⟨hcap, -⟩ := rb0Cap_range s.cfg
  have hnonempty : s.rb0.size.toNat ≠ 0 := by omega
  rw [exec_rbPush w hlegal, hpolicy, ringPush_full_overwrite hfull, ringAppend_ringEvict w hnonempty]

theorem exec_rbPop_empty (hlegal : stateLegal s = true) (hempty : s.rb0.size = 0) :
    exec .rbPop s = .next (respond .ok s) := by
  have hsize : s.rb0.size.toNat = 0 := congrArg BitVec.toNat hempty
  rw [exec_of_legal (i := .rbPop) hlegal trivial]
  simp only [commandEffect, ringPop_empty hsize]

theorem exec_rbPop_nonempty (hlegal : stateLegal s = true) (hnonempty : s.rb0.size ≠ 0) :
    exec .rbPop s =
      .next
        (respond (.okd ((memRead Config.rb0PowerOn s.rb0.slots s.rb0.head.toNat).setWidth 48))
          { s with rb0 := ringEvict s.cfg.rb0Cap s.rb0 }) := by
  have hsize : s.rb0.size.toNat ≠ 0 := fun h => hnonempty (BitVec.eq_of_toNat_eq h)
  rw [exec_of_legal (i := .rbPop) hlegal trivial]
  simp only [commandEffect, ringPop_nonempty hsize]

theorem exec_rbAt_inside {idx : BitVec 16} (hlegal : stateLegal s = true) (hidx : idx.toNat < s.rb0.size.toNat) :
    exec (.rbAt idx) s =
      .next (respond (.okd ((ringAt s.cfg.rb0Cap Config.rb0PowerOn s.rb0 idx.toNat).setWidth 48)) s) :=
  exec_of_legal hlegal hidx

theorem exec_rbAt_beyond {idx : BitVec 16} (hlegal : stateLegal s = true) (hidx : s.rb0.size.toNat ≤ idx.toNat) :
    exec (.rbAt idx) s = .fault .rbAtBeyondSize := by
  rw [exec_rbAt_eq, whenLegal_of_legal _ hlegal, if_neg (Nat.not_lt.mpr hidx)]

theorem exec_rbClear (hlegal : stateLegal s = true) :
    exec .rbClear s = .next (respond .ok { s with rb0 := ringClear s.rb0 }) :=
  exec_of_legal hlegal trivial

theorem exec_rbSize (hlegal : stateLegal s = true) :
    exec .rbSize s = .next (respond (.okd (s.rb0.size.setWidth 48)) s) :=
  exec_of_legal hlegal trivial

end

/-- Settles O39: the three cases of rb_push; a full buffer is not empty, so an eviction leaves the size as it was. -/
theorem rbPushInsertsEvictsOrDrops : Obligations.RbPushInsertsEvictsOrDrops :=
  fun w => ⟨encode_of_single_operand .rbPush w (by decide) rfl rfl (by decide), fun _ hlegal =>
    ⟨exec_rbPush_of_room w hlegal, exec_rbPush_full_discard w hlegal, exec_rbPush_full_overwrite w hlegal⟩⟩

/-- Settles O40: the two cases of rb_pop; the buffer without its oldest element is `ringEvict`. -/
theorem rbPopRemovesTheOldest : Obligations.RbPopRemovesTheOldest := by
  refine ⟨by decide, fun s hlegal => ⟨exec_rbPop_empty hlegal, fun hnonempty => ?_⟩⟩
  rw [exec_rbPop_nonempty hlegal hnonempty, ← BitVec.ofNat_toNat]
  rfl

/-- Settles O41: the two sides of the index bound; the element is read at `slotOf` of the index. -/
theorem rbAtReadsInsideAndFaultsBeyond : Obligations.RbAtReadsInsideAndFaultsBeyond := by
  refine fun idx => ⟨encode_of_single_operand .rbAt idx (by decide) rfl rfl (by decide), fun s hlegal =>
    ⟨fun hidx => ?_, exec_rbAt_beyond hlegal⟩⟩
  rw [exec_rbAt_inside hlegal hidx, ← BitVec.ofNat_toNat]
  rfl

/-- Settles O42: RB.CLEAR is `ringClear`, which keeps the slots; RB.SIZE writes nothing. -/
theorem rbClearEmptiesAndRbSizeCounts : Obligations.RbClearEmptiesAndRbSizeCounts := by
  refine ⟨by decide, by decide, fun s hlegal => ⟨exec_rbClear hlegal, ?_⟩⟩
  rw [exec_rbSize hlegal, ← BitVec.ofNat_toNat]
  rfl

end Sys2Proof.Machine
end

/-! ## The MIDI commands of spec/44_midi.md (R223 to R227) -/

section
namespace Sys2Proof.Machine

/-! ### A byte by its value (spec/30_encoding.md R101, spec/44_midi.md R222) -/

theorem isStatusByte_iff (b : BitVec 8) : isStatusByte b = true ↔ 128 ≤ b.toNat := by
  have hmsb : isStatusByte b = b.msb := (BitVec.msb_eq_getLsbD_last b).symm
  rw [hmsb, BitVec.msb_eq_true_iff_two_mul_ge]
  omega

theorem isStatusByte_of_ge {b : BitVec 8} (h : 128 ≤ b.toNat) : isStatusByte b = true := (isStatusByte_iff b).mpr h

theorem isStatusByte_of_lt {b : BitVec 8} (h : b.toNat < 128) : ¬isStatusByte b = true :=
  fun hb => Nat.not_le.mpr h ((isStatusByte_iff b).mp hb)

theorem dataValue_eq_ofNat (b : BitVec 8) : dataValue b = BitVec.ofNat 7 b.toNat := by
  apply BitVec.eq_of_toNat_eq
  rw [dataValue, BitVec.extractLsb'_toNat, Nat.shiftRight_zero, BitVec.toNat_ofNat]

theorem dataValue_toNat_of_lt {b : BitVec 8} (h : b.toNat < 128) : (dataValue b).toNat = b.toNat := by
  rw [dataValue_eq_ofNat, BitVec.toNat_ofNat, Nat.mod_eq_of_lt h]

/-- The recognised high nibbles are those of the three classes. -/
theorem recognisedStatus_iff (b : BitVec 8) :
    recognisedStatus b = true ↔ b.toNat / 16 ∈ [0x8, 0x9, 0xA, 0xB, 0xE] := by
  rw [recognisedStatus, statusClass_eq]
  by_cases hoff : b.toNat / 16 = 0x8
  · simp [hoff]
  · by_cases hon : b.toNat / 16 = 0x9
    · simp [hon]
    · simp [hoff, hon]

/-- `kind(mp_status)` in the order R223 writes it. -/
theorem noteKindCode_kindOf (status : BitVec 8) :
    noteKindCode (kindOf status) =
      if status.toNat / 16 = 0x9 then 0 else if status.toNat / 16 = 0x8 then 1 else 2 := by
  rw [kindOf, statusClass_eq]
  by_cases hoff : status.toNat / 16 = 0x8
  · simp [hoff, noteKindCode]
  · by_cases hon : status.toNat / 16 = 0x9
    · simp [hon, noteKindCode]
    · by_cases hother : status.toNat / 16 ∈ [0xA, 0xB, 0xE] <;>
        simp only [hoff, hon, hother, if_true, if_false, noteKindCode]

/-- The note a second data byte completes, as a sum. -/
theorem packNote_kindOf_dataValue (status : BitVec 8) (d : BitVec 7) {b : BitVec 8} (h : b.toNat < 128) :
    packNote (kindOf status) d (dataValue b) =
      BitVec.ofNat 16
        ((if status.toNat / 16 = 0x9 then 0 else if status.toNat / 16 = 0x8 then 1 else 2) * 2 ^ 14
          + d.toNat * 2 ^ 7 + b.toNat) := by
  rw [packNote, noteKindCode_kindOf, dataValue_toNat_of_lt h]

/-! ### The parser, one equation per row of R220 -/

section
variable {b : BitVec 8} {s : State}

theorem parseByte_recognised (hb : 128 ≤ b.toNat) (hnibble : b.toNat / 16 ∈ [0x8, 0x9, 0xA, 0xB, 0xE]) :
    parseByte b s = { s with mpStatus := b, mpData1 := 0, mpState := .awaitData1 } := by
  rw [parseByte, if_pos (isStatusByte_of_ge hb), parseStatusByte, if_pos ((recognisedStatus_iff b).mpr hnibble)]

theorem parseByte_unrecognised (hb : 128 ≤ b.toNat) (hnibble : b.toNat / 16 ∉ [0x8, 0x9, 0xA, 0xB, 0xE]) :
    parseByte b s = { s with mpStatus := 0, mpData1 := 0, mpState := .awaitStatus } := by
  rw [parseByte, if_pos (isStatusByte_of_ge hb), parseStatusByte, if_neg (mt (recognisedStatus_iff b).mp hnibble)]

theorem parseByte_of_data (hb : b.toNat < 128) : parseByte b s = parseDataByte (dataValue b) s :=
  if_neg (isStatusByte_of_lt hb)

theorem parseByte_data_awaitStatus (hb : b.toNat < 128) (hstate : s.mpState = .awaitStatus) : parseByte b s = s := by
  simp only [parseByte_of_data hb, parseDataByte, hstate]

theorem parseByte_data_awaitData1 (hb : b.toNat < 128) (hstate : s.mpState = .awaitData1) :
    parseByte b s = { s with mpData1 := BitVec.ofNat 7 b.toNat, mpState := .awaitData2 } := by
  simp only [parseByte_of_data hb, parseDataByte, hstate, dataValue_eq_ofNat]

theorem parseByte_data_awaitData2 (hb : b.toNat < 128) (hstate : s.mpState = .awaitData2) :
    parseByte b s =
      { s with
        mq := ringPush s.cfg.mqCap .discard (packNote (kindOf s.mpStatus) s.mpData1 (dataValue b)) s.mq
        mpData1 := 0
        mpState := .awaitData1 } := by
  simp only [parseByte_of_data hb, parseDataByte, hstate]

/-- The parser goes on to the next message also when the note is lost. -/
theorem parseByte_note_full (hb : b.toNat < 128) (hstate : s.mpState = .awaitData2)
    (hfull : s.mq.size.toNat = s.cfg.mqCap) : parseByte b s = { s with mpData1 := 0, mpState := .awaitData1 } := by
  rw [parseByte_data_awaitData2 hb hstate, ringPush_full_discard hfull]

theorem parseByte_note_room (hb : b.toNat < 128) (hstate : s.mpState = .awaitData2)
    (hroom : s.mq.size.toNat ≠ s.cfg.mqCap) :
    parseByte b s =
      { s with
        mq := ringAppend s.cfg.mqCap (packNote (kindOf s.mpStatus) s.mpData1 (dataValue b)) s.mq
        mpData1 := 0
        mpState := .awaitData1 } := by
  rw [parseByte_data_awaitData2 hb hstate, ringPush_of_room hroom]

end

/-! ### Each MIDI command from a legal state, case by case -/

section
variable {s : State}

/-- The response to a byte follows whatever the parser did with it. -/
theorem exec_midiParse_of_parseByte {b : BitVec 8} {t : State} (hlegal : stateLegal s = true)
    (hparse : parseByte b s = t) : exec (.midiParse b) s = .next (respond .ok t) :=
  hparse ▸ exec_of_legal hlegal trivial

theorem exec_midiAvail_empty (hlegal : stateLegal s = true) (hempty : s.mq.size = 0) :
    exec .midiAvail s = .next (respond (.okd 0) s) := by
  have hsize : ¬0 < s.mq.size.toNat := by rw [hempty]; decide
  rw [exec_of_legal (i := .midiAvail) hlegal trivial, commandEffect, if_neg hsize]

theorem exec_midiAvail_nonempty (hlegal : stateLegal s = true) (hnonempty : s.mq.size ≠ 0) :
    exec .midiAvail s = .next (respond (.okd 1) s) := by
  have hsize : 0 < s.mq.size.toNat := Nat.pos_of_ne_zero fun h => hnonempty (BitVec.eq_of_toNat_eq h)
  rw [exec_of_legal (i := .midiAvail) hlegal trivial, commandEffect, if_pos hsize]

theorem exec_midiPop_empty (hlegal : stateLegal s = true) (hempty : s.mq.size = 0) :
    exec .midiPop s = .next (respond .ok s) := by
  have hsize : s.mq.size.toNat = 0 := congrArg BitVec.toNat hempty
  rw [exec_of_legal (i := .midiPop) hlegal trivial]
  simp only [commandEffect, ringPop_empty hsize]

theorem exec_midiPop_nonempty (hlegal : stateLegal s = true) (hnonempty : s.mq.size ≠ 0) :
    exec .midiPop s =
      .next
        (respond (.okd ((memRead Config.mqPowerOn s.mq.slots s.mq.head.toNat).setWidth 48))
          { s with mq := ringEvict s.cfg.mqCap s.mq }) := by
  have hsize : s.mq.size.toNat ≠ 0 := fun h => hnonempty (BitVec.eq_of_toNat_eq h)
  rw [exec_of_legal (i := .midiPop) hlegal trivial]
  simp only [commandEffect, ringPop_nonempty hsize]

end

/-- Settles O47: the parser's row for each kind of byte, then the response; the stored note is
`packNote_kindOf_dataValue`. -/
theorem midiParseConsumesOneByte : Obligations.MidiParseConsumesOneByte := by
  refine fun b => ⟨encode_of_single_operand .midiParse b (by decide) rfl rfl (by decide), fun s hlegal =>
    ⟨fun hb hnibble => exec_midiParse_of_parseByte hlegal (parseByte_recognised hb hnibble),
      fun hb hnibble => exec_midiParse_of_parseByte hlegal (parseByte_unrecognised hb hnibble),
      fun hb hstate => exec_midiParse_of_parseByte hlegal (parseByte_data_awaitStatus hb hstate),
      fun hb hstate => exec_midiParse_of_parseByte hlegal (parseByte_data_awaitData1 hb hstate),
      fun hb hstate hfull => exec_midiParse_of_parseByte hlegal (parseByte_note_full hb hstate hfull),
      fun hb hstate hroom => ?queued⟩⟩
  case queued =>
    rw [exec_midiParse_of_parseByte hlegal (parseByte_note_room hb hstate hroom), packNote_kindOf_dataValue _ _ hb]
    rfl

/-- Settles O48: MIDI.AVAIL by whether MQ is empty; the data of MIDI.STAT is `midiData`. -/
theorem midiReadsAnswerQueueAndParser : Obligations.MidiReadsAnswerQueueAndParser :=
  ⟨by decide, by decide, fun _ hlegal =>
    ⟨exec_midiAvail_empty hlegal, exec_midiAvail_nonempty hlegal, exec_of_legal hlegal trivial⟩⟩

/-- Settles O49: the two cases of rb_pop; the queue without its oldest note is `ringEvict`. -/
theorem midiPopRemovesTheOldestNote : Obligations.MidiPopRemovesTheOldestNote := by
  refine ⟨by decide, fun s hlegal => ⟨exec_midiPop_empty hlegal, fun hnonempty => ?_⟩⟩
  rw [exec_midiPop_nonempty hlegal hnonempty, ← BitVec.ofNat_toNat]
  rfl

end Sys2Proof.Machine
end

/-! ## The errors of spec/60_exceptions.md (R251 to R253) -/

section
namespace Sys2Proof.Machine

/-! ### Words outside the opcode map (R251) -/

/-- A word that matches no row is not decoded: a decoded command matches its own row. -/
theorem decode_error_of_no_row {cmd : CmdWord} (h : ∀ row ∈ opcodeTable, cmd &&& row.mask ≠ row.pattern) :
    ∃ reason, decode cmd = .error reason := by
  cases hdecode : decode cmd with
  | error reason => exact ⟨reason, rfl⟩
  | ok i =>
    have hrow : i.mnemonic.row ∈ opcodeTable := mem_opcodeTable_iff.mpr rfl
    exact absurd ((decode_iff_matches_row hrow cmd).mp ⟨i, hdecode, rfl⟩) (h _ hrow)

theorem step_of_decode_error {s : State} {cmd : CmdWord} {rest : List Input} {reason : Illegal}
    (hport : s.port = .command cmd :: rest) (hdecode : decode cmd = .error reason) :
    step s = illegalCommand (withPort rest s) := by
  simp only [step, hport, hdecode]

theorem illegalCommand_of_legal {s : State} (hlegal : stateLegal s = true) :
    illegalCommand s = .next (raise .illegal s) :=
  whenLegal_of_legal _ hlegal

/-- Settles O4: the word is not decoded, and ERR(ILLEGAL) is raised with the word taken off the port. -/
theorem illegalWordsAnswerIllegal : Obligations.IllegalWordsAnswerIllegal := by
  intro s cmd rest hlegal hport hrows
  have hword : responseWord (.err .illegal) = 0x9000000000000000 := by decide
  obtain ⟨reason, hdecode⟩ := decode_error_of_no_row hrows
  rw [step_of_decode_error hport hdecode, illegalCommand_of_legal (by rwa [stateLegal_withPort]), ← hword]
  rfl

/-! ### The error a command takes (R252, R253) -/

/-- BAD_OPERAND for a sample-rate operand of 0 (R252). -/
def operandError (sr : BitVec 24) : Option ErrorCode := if sr = 0 then some .badOperand else none

/-- UNSET for a read of a register whose set flag is 0 (R253). -/
def readError (x : Option (BitVec 32)) : Option ErrorCode := if x = none then some .unset else none

/-- ENV.STEP reads the rate of the phase it is in, and none in IDLE (spec/41_envelope.md R131). -/
def envStepError (s : State) : Option ErrorCode :=
  match s.envPhase with
  | .idle => none
  | .attack => readError s.envArate
  | .release => readError s.envRrate

/-- The error a command takes from a legal state, if any; `answersWith_commandEffect` ties it to what the command does. -/
def errorOf (i : Instr) (s : State) : Option ErrorCode :=
  match i with
  | .envStep => envStepError s
  | .envSeta _ sr => operandError sr
  | .envSetr _ sr => operandError sr
  | .envRda => readError s.envArate
  | .envRdr => readError s.envRrate
  | .oscStep => readError s.oscDelta
  | .oscSetsr sr => operandError sr
  | .oscRdd => readError s.oscDelta
  | _ => none

theorem operandError_eq_badOperand_iff {sr : BitVec 24} : operandError sr = some .badOperand ↔ sr = 0 := by
  simp [operandError]

theorem operandError_ne_unset (sr : BitVec 24) : operandError sr ≠ some .unset := by
  simp [operandError]

theorem readError_eq_unset_iff {x : Option (BitVec 32)} : readError x = some .unset ↔ x = none := by
  simp [readError]

theorem readError_ne_badOperand (x : Option (BitVec 32)) : readError x ≠ some .badOperand := by
  simp [readError]

theorem envStepError_eq_unset_iff {s : State} :
    envStepError s = some .unset ↔
      (s.envPhase = .attack ∧ s.envArate = none) ∨ (s.envPhase = .release ∧ s.envRrate = none) := by
  cases hphase : s.envPhase <;> simp [envStepError, hphase, readError_eq_unset_iff]

theorem envStepError_ne_badOperand (s : State) : envStepError s ≠ some .badOperand := by
  cases hphase : s.envPhase <;> simp [envStepError, hphase, readError_ne_badOperand]

/-- The commands that take BAD_OPERAND, in the words of R252. -/
theorem errorOf_eq_badOperand_iff {i : Instr} {s : State} :
    errorOf i s = some .badOperand ↔ (∃ t, i = .envSeta t 0) ∨ (∃ t, i = .envSetr t 0) ∨ i = .oscSetsr 0 := by
  constructor
  · intro h
    cases i
    case envSeta t sr =>
      obtain rfl := operandError_eq_badOperand_iff.mp h
      exact .inl ⟨t, rfl⟩
    case envSetr t sr =>
      obtain rfl := operandError_eq_badOperand_iff.mp h
      exact .inr (.inl ⟨t, rfl⟩)
    case oscSetsr sr =>
      obtain rfl := operandError_eq_badOperand_iff.mp h
      exact .inr (.inr rfl)
    case envStep => exact absurd h (envStepError_ne_badOperand s)
    case envRda | envRdr | oscStep | oscRdd => exact absurd h (readError_ne_badOperand _)
    all_goals cases h
  · rintro (⟨t, rfl⟩ | ⟨t, rfl⟩ | rfl) <;> exact operandError_eq_badOperand_iff.mpr rfl

/-- The commands that take UNSET, in the words of R253. -/
theorem errorOf_eq_unset_iff {i : Instr} {s : State} :
    errorOf i s = some .unset ↔
      (i = .envStep ∧ s.envPhase = .attack ∧ s.envArate = none)
        ∨ (i = .envStep ∧ s.envPhase = .release ∧ s.envRrate = none)
        ∨ (i = .envRda ∧ s.envArate = none)
        ∨ (i = .envRdr ∧ s.envRrate = none)
        ∨ (i = .oscStep ∧ s.oscDelta = none)
        ∨ (i = .oscRdd ∧ s.oscDelta = none) := by
  constructor
  · intro h
    cases i
    case envStep => exact (envStepError_eq_unset_iff.mp h).imp (.intro rfl) (.inl ∘ .intro rfl)
    case envRda => exact .inr (.inr (.inl ⟨rfl, readError_eq_unset_iff.mp h⟩))
    case envRdr => exact .inr (.inr (.inr (.inl ⟨rfl, readError_eq_unset_iff.mp h⟩)))
    case oscStep => exact .inr (.inr (.inr (.inr (.inl ⟨rfl, readError_eq_unset_iff.mp h⟩))))
    case oscRdd => exact .inr (.inr (.inr (.inr (.inr ⟨rfl, readError_eq_unset_iff.mp h⟩))))
    case envSeta | envSetr | oscSetsr => exact absurd h (operandError_ne_unset _)
    all_goals cases h
  · rintro (⟨rfl, h⟩ | ⟨rfl, h⟩ | ⟨rfl, h⟩ | ⟨rfl, h⟩ | ⟨rfl, h⟩ | ⟨rfl, h⟩)
    · exact envStepError_eq_unset_iff.mpr (.inl h)
    · exact envStepError_eq_unset_iff.mpr (.inr h)
    all_goals exact readError_eq_unset_iff.mpr h

/-- RB.AT, the one command that can stop, takes no error. -/
theorem indexWithinSize_of_errorOf {i : Instr} {s : State} {e : ErrorCode} (h : errorOf i s = some e) :
    IndexWithinSize i s := by
  cases i
  case rbAt idx => exact absurd h (Option.some_ne_none e).symm
  all_goals trivial

/-! ### What is answered tells the error taken (spec/00_scope.md R15) -/

theorem responseWord_err_injective {e e' : ErrorCode} (h : responseWord (.err e) = responseWord (.err e')) : e = e' := by
  cases e <;> cases e' <;> revert h <;> decide

/-- `t` is what a command taking `error` makes of `s`: that error raised and nothing else, or, taking none, one response that
is no error. -/
def AnswersWith (error : Option ErrorCode) (s t : State) : Prop :=
  match error with
  | some e => t = raise e s
  | none => ∃ r : Response, (∀ e, r ≠ .err e) ∧ t.out = s.out ++ [responseWord r]

/-- An error response is answered exactly when its error is taken: no other response has its word. -/
theorem AnswersWith.out_eq_err_iff {error : Option ErrorCode} {s t : State} (h : AnswersWith error s t) (e : ErrorCode) :
    t.out = s.out ++ [responseWord (.err e)] ↔ error = some e := by
  cases error with
  | some e' =>
    obtain rfl : t = raise e' s := h
    rw [raise_out, List.append_cancel_left_eq, List.singleton_inj, Option.some.injEq]
    exact ⟨responseWord_err_injective, fun h => by rw [h]⟩
  | none =>
    obtain ⟨r, hr, hout⟩ := h
    refine ⟨fun herr => ?_, nofun⟩
    have hword : responseWord r = responseWord (.err e) :=
      List.singleton_inj.mp (List.append_cancel_left (hout.symm.trans herr))
    obtain ⟨-, -, herrBit, -⟩ := responseWord_fields r
    obtain ⟨-, -, herrBit', -⟩ := responseWord_fields (.err e)
    obtain ⟨e', he'⟩ := herrBit.mp (hword ▸ herrBit'.mpr ⟨e, rfl⟩)
    exact absurd he' (hr e')

section
variable {s u : State}

theorem answersWith_none_respond {r : Response} (hout : u.out = s.out) (hr : ∀ e, r ≠ .err e) :
    AnswersWith none s (respond r u) :=
  ⟨r, hr, by rw [respond_out, hout]⟩

theorem answersWith_operandError (sr : BitVec 24) (hout : u.out = s.out) :
    AnswersWith (operandError sr) s (if sr = 0 then raise .badOperand s else respond .ok u) := by
  by_cases hsr : sr = 0
  · rw [operandError, if_pos hsr, if_pos hsr]
    rfl
  · rw [operandError, if_neg hsr, if_neg hsr]
    exact answersWith_none_respond hout (by simp)

theorem answersWith_respondRegister (x : Option (BitVec 32)) : AnswersWith (readError x) s (respondRegister x s) := by
  cases x with
  | none => rfl
  | some v => exact answersWith_none_respond rfl (by simp)

theorem answersWith_attackStep : AnswersWith (readError s.envArate) s (attackStep s) := by
  unfold attackStep
  cases s.envArate with
  | none => rfl
  | some a => exact answersWith_none_respond rfl (by simp)

theorem answersWith_releaseStep : AnswersWith (readError s.envRrate) s (releaseStep s) := by
  unfold releaseStep
  cases s.envRrate with
  | none => rfl
  | some r => exact answersWith_none_respond rfl (by simp)

theorem answersWith_envelopeStep : AnswersWith (envStepError s) s (envelopeStep s) := by
  unfold envStepError envelopeStep
  cases s.envPhase with
  | idle => exact answersWith_none_respond rfl (by simp)
  | attack => exact answersWith_attackStep
  | release => exact answersWith_releaseStep

theorem answersWith_oscillatorStep : AnswersWith (readError s.oscDelta) s (oscillatorStep s) := by
  unfold oscillatorStep
  cases s.oscDelta with
  | none => rfl
  | some d => exact answersWith_none_respond rfl (by simp)

end

/-- Every command raises the error it takes, or takes none and answers no error. -/
theorem answersWith_commandEffect (i : Instr) (s : State) : AnswersWith (errorOf i s) s (commandEffect i s) := by
  cases i
  case envStep => exact answersWith_envelopeStep
  case oscStep => exact answersWith_oscillatorStep
  case envRda | envRdr | oscRdd => exact answersWith_respondRegister _
  case envSeta | envSetr | oscSetsr => exact answersWith_operandError _ rfl
  case midiParse b =>
    obtain ⟨-, hout⟩ := parseByte_ports b s
    exact answersWith_none_respond hout (by simp)
  case rbPop | midiPop =>
    unfold commandEffect
    dsimp only
    split <;> exact answersWith_none_respond rfl (by simp)
  all_goals exact answersWith_none_respond rfl (by simp)

theorem exec_out_eq_err_iff {i : Instr} {s : State} (hlegal : stateLegal s = true) (e : ErrorCode) :
    (∃ t, exec i s = .next t ∧ t.out = s.out ++ [responseWord (.err e)]) ↔ errorOf i s = some e := by
  constructor
  · rintro ⟨t, hexec, hout⟩
    obtain ⟨-, -, rfl⟩ := exec_eq_next hexec
    exact ((answersWith_commandEffect i s).out_eq_err_iff e).mp hout
  · intro herror
    exact ⟨commandEffect i s, exec_of_legal hlegal (indexWithinSize_of_errorOf herror),
      ((answersWith_commandEffect i s).out_eq_err_iff e).mpr herror⟩

/-- A command that answers an error did nothing but raise it (R256). -/
theorem eq_raise_of_out_eq_err {i : Instr} {s t : State} {e : ErrorCode} (hexec : exec i s = .next t)
    (hout : t.out = s.out ++ [responseWord (.err e)]) : t = raise e s := by
  obtain ⟨-, -, rfl⟩ := exec_eq_next hexec
  have hanswers := answersWith_commandEffect i s
  rwa [(hanswers.out_eq_err_iff e).mp hout] at hanswers

/-- Settles O13: the commands that take BAD_OPERAND are those of `errorOf_eq_badOperand_iff`, and `raise` writes nothing. -/
theorem badOperandIsASampleRateOfZero : Obligations.BadOperandIsASampleRateOfZero := by
  intro i s hlegal
  have hword : responseWord (.err .badOperand) = 0xA000000000000000 := by decide
  rw [← hword]
  exact ⟨(exec_out_eq_err_iff hlegal _).trans errorOf_eq_badOperand_iff, fun _ => eq_raise_of_out_eq_err⟩

/-! ### The setters end the UNSET condition (R253) -/

section
variable {s t : State}

theorem envArate_ne_none_of_envSeta {time sr : BitVec 24} (hexec : exec (.envSeta time sr) s = .next t) (hsr : sr ≠ 0) :
    t.envArate ≠ none := by
  obtain ⟨-, -, rfl⟩ := exec_eq_next hexec
  rw [commandEffect, if_neg hsr]
  simp

theorem envRrate_ne_none_of_envSetr {time sr : BitVec 24} (hexec : exec (.envSetr time sr) s = .next t) (hsr : sr ≠ 0) :
    t.envRrate ≠ none := by
  obtain ⟨-, -, rfl⟩ := exec_eq_next hexec
  rw [commandEffect, if_neg hsr]
  simp

/-- The frequency was set first, so the sample rate completes the pair. -/
theorem oscDelta_ne_none_of_oscSetsr {sr : BitVec 24} (hexec : exec (.oscSetsr sr) s = .next t) (hsr : sr ≠ 0)
    (hfreq : s.oscFreq ≠ none) : t.oscDelta ≠ none := by
  obtain ⟨hlegal, -, -⟩ := exec_eq_next hexec
  obtain ⟨f, hf⟩ := Option.ne_none_iff_exists'.mp hfreq
  obtain rfl := Host.Outcome.next.inj ((exec_oscSetsr_of_freq_set hlegal hsr hf).symm.trans hexec)
  simp

/-- The sample rate was set first, so the frequency completes the pair. -/
theorem oscDelta_ne_none_of_oscSetf {w : BitVec 32} (hexec : exec (.oscSetf w) s = .next t) (hsr : s.oscSr ≠ none) :
    t.oscDelta ≠ none := by
  obtain ⟨hlegal, -, -⟩ := exec_eq_next hexec
  obtain ⟨sr, hset⟩ := Option.ne_none_iff_exists'.mp hsr
  obtain rfl := Host.Outcome.next.inj ((exec_oscSetf_of_sr_set w hlegal hset).symm.trans hexec)
  simp

end

/-- Settles O14: the commands that take UNSET are those of `errorOf_eq_unset_iff`, `raise` writes nothing, and each setter
leaves its register set. -/
theorem unsetIsAReadOfAnUnsetRegister : Obligations.UnsetIsAReadOfAnUnsetRegister := by
  intro i s hlegal
  have hword : responseWord (.err .unset) = 0xB000000000000000 := by decide
  rw [← hword]
  refine ⟨(exec_out_eq_err_iff hlegal _).trans errorOf_eq_unset_iff, fun _ => eq_raise_of_out_eq_err,
    fun t hexec => ⟨?seta, ?setr, ?setsr, ?setf⟩⟩
  case seta =>
    rintro time sr rfl
    exact envArate_ne_none_of_envSeta hexec
  case setr =>
    rintro time sr rfl
    exact envRrate_ne_none_of_envSetr hexec
  case setsr =>
    rintro sr rfl
    exact oscDelta_ne_none_of_oscSetsr hexec
  case setf =>
    rintro w rfl
    exact oscDelta_ne_none_of_oscSetf hexec

end Sys2Proof.Machine
end

/-! ## The reset input of spec/70_reset_and_hazards.md (R280, R281) -/

section
namespace Sys2Proof.Machine

/-- From a legal state the reset input completes, and its effect is the reset alone (R280). -/
theorem resetInput_of_legal {s : State} (hlegal : stateLegal s = true) : resetInput s = .next (clearRegisters s) :=
  whenLegal_of_legal _ hlegal

/-- From a legal state SYS.RESET adds its OK to the effect of the reset input (R281). -/
theorem exec_sysReset_of_legal {s : State} (hlegal : stateLegal s = true) :
    exec .sysReset s = .next (respond .ok (clearRegisters s)) :=
  exec_of_legal hlegal trivial

/-- Settles O7: the step takes the reset input off the port, and `clearRegisters` is its effect and that of SYS.RESET. -/
theorem resetInputWritesEveryRegister : Obligations.ResetInputWritesEveryRegister := by
  intro s rest hlegal hport
  have hlegal' : stateLegal (withPort rest s) = true := by rwa [stateLegal_withPort]
  refine ⟨clearRegisters (withPort rest s), ?input, rfl, ?command⟩
  case input => rw [step_of_port_reset hport, resetInput_of_legal hlegal']
  case command => exact exec_sysReset_of_legal hlegal'

end Sys2Proof.Machine
end

/-! ## Encoding and decoding are inverse (spec/30_encoding.md R90 to R94) -/

section
namespace Sys2Proof

/-! ### Operands inside the operand field (R91, R92) -/

/-- The operands in the low bits of the word are the low bits of the operand field. -/
theorem setWidth_fieldOpnd {k : Nat} (cmd : CmdWord) (hk : k ≤ 48) : (fieldOpnd cmd).setWidth k = cmd.extractLsb' 0 k := by
  apply BitVec.eq_of_getLsbD_eq
  intro j hj
  simp [fieldOpnd, hj, Nat.lt_of_lt_of_le hj hk]

/-- An operand above which every bit of the operand field is must-be-zero and zero is the whole field. -/
theorem setWidth_extract_of_and_eq_zero {k : Nat} {cmd : CmdWord} {m : BitVec 48} (hk : k ≤ 48)
    (hm : ∀ j < 48, k ≤ j → m.getLsbD j = true) (h : fieldOpnd cmd &&& m = 0) :
    (cmd.extractLsb' 0 k).setWidth 48 = fieldOpnd cmd := by
  rw [← setWidth_fieldOpnd cmd hk]
  apply BitVec.eq_of_getLsbD_eq
  intro j hj
  rcases Nat.lt_or_ge j k with hlow | hhigh
  · simp [hj, hlow]
  · have hbit : (fieldOpnd cmd &&& m).getLsbD j = false := by rw [h]; simp
    rw [BitVec.getLsbD_and, hm j hj hhigh, Bool.and_true] at hbit
    simp [hbit, Nat.not_lt.mpr hhigh]

/-- The first operand of format T is the upper half of the operand field. -/
theorem operandT_eq_extract (cmd : CmdWord) : operandT cmd = (fieldOpnd cmd).extractLsb' 24 24 := by
  apply BitVec.eq_of_getLsbD_eq
  intro j hj
  simp [operandT, fieldOpnd, hj]

/-- Format T fills the operand field with its two operands. -/
theorem formatT_opnd_eq_append (t sr : BitVec 24) : (t.setWidth 48 <<< 24) ||| sr.setWidth 48 = t ++ sr := by
  apply BitVec.eq_of_toNat_eq
  rw [formatT_opnd_toNat, BitVec.toNat_append, ← Nat.shiftLeft_add_eq_or_of_lt sr.isLt, Nat.shiftLeft_eq]

/-- No operand reaches into the must-be-zero bits of its format. -/
theorem opnd_and_mustBeZero (i : Instr) : i.opnd &&& i.mnemonic.format.mustBeZero = 0 := by
  cases i
  case envSeta | envSetr => exact BitVec.and_zero
  case oscSetsr | oscSetf | rbPush | rbAt | midiParse =>
    dsimp only [Instr.mnemonic]
    exact Laws.setWidth_and_eq_zero _ _ (by decide)
  all_goals rfl

/-- An operand in the low bits of the operand field is read back from the word. -/
theorem extract_of_fieldOpnd {k : Nat} {cmd : CmdWord} {x : BitVec k} (hk : k ≤ 48) (h : fieldOpnd cmd = x.setWidth 48) :
    cmd.extractLsb' 0 k = x := by
  rw [← setWidth_fieldOpnd cmd hk, h, BitVec.setWidth_setWidth_of_le _ hk, BitVec.setWidth_eq]

/-- The operands taken from a field that holds those of `i` are those of `i`. -/
theorem instr_of_fieldOpnd {cmd : CmdWord} {i : Instr} (h : fieldOpnd cmd = i.opnd) : i.mnemonic.instr cmd = i := by
  cases i
  case envSeta t sr | envSetr t sr =>
    have happend : fieldOpnd cmd = t ++ sr := h.trans (formatT_opnd_eq_append t sr)
    have ht : operandT cmd = t := by rw [operandT_eq_extract, happend, BitVec.extractLsb'_append_eq_left]
    have hsr : operandS cmd = sr := by
      rw [operandS, ← setWidth_fieldOpnd cmd (by decide), happend, BitVec.setWidth_append_eq_right]
    simp only [Instr.mnemonic, Mnemonic.instr, ht, hsr]
  case oscSetsr | oscSetf | rbPush | rbAt | midiParse =>
    dsimp only [Instr.mnemonic, Mnemonic.instr]
    exact congrArg _ (extract_of_fieldOpnd (by decide) h)
  all_goals rfl

/-- The operands of a word without a must-be-zero bit are its whole operand field. -/
theorem opnd_instr {cmd : CmdWord} {m : Mnemonic} (h : fieldOpnd cmd &&& m.format.mustBeZero = 0) :
    (m.instr cmd).opnd = fieldOpnd cmd := by
  cases m
  case envSeta | envSetr =>
    rw [Mnemonic.instr, Instr.opnd, formatT_opnd_eq_append, operandT_eq_extract, operandS,
      ← setWidth_fieldOpnd cmd (by decide), BitVec.setWidth_eq_extractLsb' (by decide)]
    exact (BitVec.extractLsb'_append_extractLsb'_eq_extractLsb' rfl).trans BitVec.extractLsb'_eq_self
  case oscSetsr | oscSetf | rbPush | rbAt | midiParse => exact setWidth_extract_of_and_eq_zero (by decide) (by decide) h
  all_goals exact (BitVec.and_allOnes.symm.trans h).symm

/-! ### The word as its fields -/

theorem encode_eq_append (i : Instr) : encode i = i.mnemonic.opcode ++ 0#8 ++ i.opnd := by
  apply BitVec.eq_of_getLsbD_eq
  intro j hj
  rw [show (i.mnemonic.opcode ++ 0#8 ++ i.opnd).getLsbD j = _ from BitVec.getLsbD_append, BitVec.getLsbD_append]
  rcases Nat.lt_or_ge j 48 with hopnd | hhigh
  · have hlow : j < 56 := by omega
    simp [encode, hj, hopnd, hlow]
  · have hnone : i.opnd.getLsbD j = false := BitVec.getLsbD_of_ge _ _ hhigh
    rcases Nat.lt_or_ge j 56 with hrsv | hopcode
    · have h8 : j - 48 < 8 := by omega
      simp [encode, hnone, hrsv, Nat.not_lt.mpr hhigh, h8]
    · have h8 : ¬j - 48 < 8 := by omega
      have h56 : j - 48 - 8 = j - 56 := by omega
      simp [encode, hj, hnone, Nat.not_lt.mpr hhigh, Nat.not_lt.mpr hopcode, h8, h56]

theorem fields_encode (i : Instr) :
    fieldOpcode (encode i) = i.mnemonic.opcode ∧ fieldRsv (encode i) = 0 ∧ fieldOpnd (encode i) = i.opnd := by
  have happend := (fields_append (encode i)).trans (encode_eq_append i)
  obtain ⟨hhigh, hopnd⟩ := append_eq_append_iff.mp happend
  obtain ⟨hopcode, hrsv⟩ := append_eq_append_iff.mp hhigh
  exact ⟨hopcode, hrsv, hopnd⟩

theorem decode_encode (i : Instr) : decode (encode i) = .ok i := by
  obtain ⟨hopcode, hrsv, hopnd⟩ := fields_encode i
  exact decode_eq_ok_iff.mpr
    ⟨i.mnemonic, ⟨hopcode, hrsv, hopnd ▸ opnd_and_mustBeZero i⟩, instr_of_fieldOpnd hopnd⟩

/-- Settles O1: the word's three fields are opcode, zero and operands, and each operand is read back from its field. -/
theorem decodeOfEncodeIsTheCommand : Obligations.DecodeOfEncodeIsTheCommand := decode_encode

/-- Settles O2: the word and the encoding of its command have the same three fields. -/
theorem encodeOfDecodeIsTheWord : Obligations.EncodeOfDecodeIsTheWord := by
  intro cmd i h
  obtain ⟨m, ⟨hopcode, hrsv, hzero⟩, rfl⟩ := decode_eq_ok_iff.mp h
  calc encode (m.instr cmd)
      = m.opcode ++ 0#8 ++ fieldOpnd cmd := by rw [encode_eq_append, mnemonic_instr, opnd_instr hzero]
    _ = fieldOpcode cmd ++ fieldRsv cmd ++ fieldOpnd cmd := by rw [hopcode, hrsv]; rfl
    _ = cmd := fields_append cmd

/-- Settles O8: the decoder run on the ten words of spec/95_test_vectors.md section 3.1. -/
theorem sampleWordsDecode : Obligations.SampleWordsDecode := by
  unfold Obligations.SampleWordsDecode
  decide

end Sys2Proof
end

/-! ## Steps and stops (spec/00_scope.md R16, spec/10_state.md R21, spec/60_exceptions.md section 4) -/

section
namespace Sys2Proof.Machine

/-! ### A step, by what the port holds -/

section
variable {s : State} {rest : List Input}

theorem step_of_port_nil (h : s.port = []) : step s = idle s := by
  simp only [step, h]

theorem step_of_decode_ok {cmd : CmdWord} {i : Instr} (hport : s.port = .command cmd :: rest)
    (hdecode : decode cmd = .ok i) : step s = exec i (withPort rest s) := by
  simp only [step, hport, hdecode]

end

/-- Settles O5: the arm of `step` for a decoded word. -/
theorem stepRunsTheDecodedCommand : Obligations.StepRunsTheDecodedCommand :=
  fun _ _ _ _ hport hdecode => step_of_decode_ok hport hdecode

/-- Settles O6: the arm of `step` for an empty port, whose guard a legal state passes. -/
theorem idlePortLeavesTheBlockAlone : Obligations.IdlePortLeavesTheBlockAlone := by
  intro s hlegal hport
  rw [step_of_port_nil hport]
  exact whenLegal_of_legal _ hlegal

/-- All a step can do when it answers next. -/
theorem step_eq_next {s t : State} (h : step s = .next t) :
    stateLegal s = true ∧
      ((s.port = [] ∧ t = s)
        ∨ (∃ rest, s.port = .reset :: rest ∧ t = clearRegisters (withPort rest s))
        ∨ (∃ cmd rest i, s.port = .command cmd :: rest ∧ exec i (withPort rest s) = .next t)
        ∨ (∃ cmd rest, s.port = .command cmd :: rest ∧ t = raise .illegal (withPort rest s))) := by
  match hport : s.port with
  | [] =>
    rw [step_of_port_nil hport] at h
    obtain ⟨hlegal, h⟩ := whenLegal_eq_next h
    exact ⟨hlegal, .inl ⟨rfl, (Host.Outcome.next.inj h).symm⟩⟩
  | .reset :: rest =>
    rw [step_of_port_reset hport] at h
    obtain ⟨hlegal, h⟩ := whenLegal_eq_next h
    exact ⟨hlegal, .inr (.inl ⟨rest, rfl, (Host.Outcome.next.inj h).symm⟩)⟩
  | .command cmd :: rest =>
    cases hdecode : decode cmd with
    | ok i =>
      rw [step_of_decode_ok hport hdecode] at h
      obtain ⟨hlegal, -, -⟩ := exec_eq_next h
      exact ⟨hlegal, .inr (.inr (.inl ⟨cmd, rest, i, rfl, h⟩))⟩
    | error reason =>
      rw [step_of_decode_error hport hdecode] at h
      obtain ⟨hlegal, h⟩ := whenLegal_eq_next h
      exact ⟨hlegal, .inr (.inr (.inr ⟨cmd, rest, rfl, (Host.Outcome.next.inj h).symm⟩))⟩

/-! ### Where a command stops -/

theorem exec_of_illegal (i : Instr) {s : State} (h : stateLegal s = false) : exec i s = .refused .illegalState := by
  by_cases hat : ∃ idx, i = .rbAt idx
  · obtain ⟨idx, rfl⟩ := hat
    exact whenLegal_of_illegal _ h
  · rw [exec_eq_effect i s (not_exists.mp hat)]
    exact whenLegal_of_illegal _ h

/-- Settles O16: every meaning and every other arm of `step` stands under the guard `whenLegal`. -/
theorem illegalStatesAreRefused : Obligations.IllegalStatesAreRefused := by
  intro s hillegal
  refine ⟨fun i => exec_of_illegal i hillegal, ?_⟩
  match hport : s.port with
  | [] =>
    rw [step_of_port_nil hport]
    exact whenLegal_of_illegal _ hillegal
  | .reset :: rest =>
    rw [step_of_port_reset hport]
    exact whenLegal_of_illegal _ hillegal
  | .command cmd :: rest =>
    cases hdecode : decode cmd with
    | ok i =>
      rw [step_of_decode_ok hport hdecode]
      exact exec_of_illegal i hillegal
    | error reason =>
      rw [step_of_decode_error hport hdecode]
      exact whenLegal_of_illegal _ hillegal

theorem not_indexWithinSize_iff {i : Instr} {s : State} :
    ¬IndexWithinSize i s ↔ ∃ idx, i = .rbAt idx ∧ s.rb0.size.toNat ≤ idx.toNat := by
  cases i
  case rbAt idx => simp [IndexWithinSize]
  all_goals simp [IndexWithinSize]

/-- Outside the index bound a legal state has no successor (93_implementation_defined.md U1). -/
theorem exec_of_not_indexWithinSize {i : Instr} {s : State} (hlegal : stateLegal s = true) (h : ¬IndexWithinSize i s) :
    exec i s = .fault .rbAtBeyondSize := by
  obtain ⟨idx, rfl, hidx⟩ := not_indexWithinSize_iff.mp h
  exact exec_rbAt_beyond hlegal hidx

/-- Settles O15: inside the index bound a command has its effect, outside it is RB.AT and faults. -/
theorem onlyRbAtBeyondTheSizeStops : Obligations.OnlyRbAtBeyondTheSizeStops := by
  intro i s hlegal
  rw [← not_indexWithinSize_iff]
  by_cases hidx : IndexWithinSize i s
  · simp [exec_of_legal hlegal hidx, hidx]
  · simp [exec_of_not_indexWithinSize hlegal hidx, hidx]

/-! ### What a command answers -/

/-- Settles O11: `exec_answers`. -/
theorem oneResponsePerCommand : Obligations.OneResponsePerCommand :=
  fun _ _ _ h => exec_answers h

/-- Bit 63 of a response word tells errors from the others (spec/00_scope.md R15). -/
theorem responseWord_getLsbD_63 (r : Response) : (responseWord r).getLsbD 63 = true ↔ ∃ e, r = .err e := by
  obtain ⟨-, -, herr, -⟩ := responseWord_fields r
  have hone : ∀ y : BitVec 1, y = 1 ↔ y.getLsbD 0 = true := by decide
  rw [← herr, hone, BitVec.getLsbD_extractLsb']
  simp

/-- Settles O12: the emitted word has the ERR bit, so an error was taken, and an error is only raised. -/
theorem errorResponsesWriteNothing : Obligations.ErrorResponsesWriteNothing := by
  intro i s t word hexec hout hbit
  obtain ⟨-, r, -, hr⟩ := exec_answers hexec
  obtain rfl : word = responseWord r := List.singleton_inj.mp (List.append_cancel_left (hout.symm.trans hr))
  obtain ⟨e, rfl⟩ := (responseWord_getLsbD_63 r).mp hbit
  exact eq_raise_of_out_eq_err hexec hr

/-! ### What a command does not read -/

/-- The state with other buffers and another command port. -/
def withOutside (r : RingBuf 32) (q : RingBuf 16) (p : List Input) (s : State) : State :=
  { s with rb0 := r, mq := q, port := p }

/-- The commands that read or write RB0 or MQ: the RB and MIDI commands and the reset. `commandEffect_withOutside` says that
the others do not. -/
def usesBuffers : Instr → Bool
  | .sysReset => true
  | .rbPush _ | .rbPop | .rbAt _ | .rbClear | .rbSize => true
  | .midiParse _ | .midiAvail | .midiPop | .midiStat => true
  | _ => false

section
variable (r : RingBuf 32) (q : RingBuf 16) (p : List Input) (s : State)

theorem respondRegister_withOutside (x : Option (BitVec 32)) :
    respondRegister x (withOutside r q p s) = withOutside r q p (respondRegister x s) := by
  cases x <;> rfl

theorem envelopeStep_withOutside : envelopeStep (withOutside r q p s) = withOutside r q p (envelopeStep s) := by
  simp only [envelopeStep, attackStep, releaseStep, withOutside]
  split
  · rfl
  · split <;> rfl
  · split <;> rfl

theorem oscillatorStep_withOutside : oscillatorStep (withOutside r q p s) = withOutside r q p (oscillatorStep s) := by
  simp only [oscillatorStep, withOutside]
  split <;> rfl

theorem commandEffect_withOutside {i : Instr} (h : usesBuffers i = false) :
    commandEffect i (withOutside r q p s) = withOutside r q p (commandEffect i s) := by
  cases i
  case envStep => exact envelopeStep_withOutside r q p s
  case oscStep => exact oscillatorStep_withOutside r q p s
  case envRda | envRdr | oscRdd => exact respondRegister_withOutside r q p s _
  case envSeta | envSetr | oscSetsr =>
    dsimp only [commandEffect]
    split <;> rfl
  case sysReset | rbPush | rbPop | rbAt | rbClear | rbSize | midiParse | midiAvail | midiPop | midiStat => cases h
  all_goals rfl

end

theorem parseByte_withPort (b : BitVec 8) (p : List Input) (s : State) :
    parseByte b (withPort p s) = withPort p (parseByte b s) := by
  simp only [parseByte, parseStatusByte, parseDataByte, withPort]
  split
  · split <;> rfl
  · split <;> rfl

/-- Left as they are, the buffers come out of the effect as they are. -/
theorem buffers_commandEffect {i : Instr} (s : State) (h : usesBuffers i = false) :
    (commandEffect i s).rb0 = s.rb0 ∧ (commandEffect i s).mq = s.mq := by
  have hself : commandEffect i s = withOutside s.rb0 s.mq s.port (commandEffect i s) :=
    commandEffect_withOutside s.rb0 s.mq s.port s h
  rw [hself]
  exact ⟨rfl, rfl⟩

theorem commandEffect_withPort_of_no_buffers {i : Instr} (p : List Input) (s : State) (h : usesBuffers i = false) :
    commandEffect i (withPort p s) = withPort p (commandEffect i s) :=
  calc commandEffect i (withPort p s)
      = withOutside s.rb0 s.mq p (commandEffect i s) := commandEffect_withOutside s.rb0 s.mq p s h
    _ = withPort p (commandEffect i s) :=
      (congrArg (withPort p) (commandEffect_withOutside s.rb0 s.mq s.port s h)).symm

/-- No command reads what waits behind it on the port. -/
theorem commandEffect_withPort (i : Instr) (p : List Input) (s : State) :
    commandEffect i (withPort p s) = withPort p (commandEffect i s) := by
  cases i
  case sysReset | rbPush | rbAt | rbClear | rbSize | midiAvail | midiStat => rfl
  case midiParse b => exact congrArg (respond .ok) (parseByte_withPort b p s)
  case rbPop | midiPop =>
    dsimp only [commandEffect, withPort]
    split <;> rfl
  all_goals exact commandEffect_withPort_of_no_buffers p s rfl

/-- A command that completes does so whatever waits behind it. -/
theorem exec_withPort {i : Instr} {s t : State} (p : List Input) (h : exec i s = .next t) :
    exec i (withPort p s) = .next (withPort p t) := by
  obtain ⟨hlegal, hidx, rfl⟩ := exec_eq_next h
  rw [exec_of_legal (s := withPort p s) hlegal ?_, commandEffect_withPort]
  cases i <;> exact hidx

theorem execAll_cons {i : Instr} {s u : State} (is : List Instr) (h : exec i s = .next u) :
    execAll (i :: is) s = execAll is u := by
  simp only [execAll, h]

theorem execAll_cons_eq_next {i : Instr} {is : List Instr} {s t : State} (h : execAll (i :: is) s = .next t) :
    ∃ u, exec i s = .next u ∧ execAll is u = .next t := by
  cases hexec : exec i s with
  | next u => exact ⟨u, rfl, execAll_cons is hexec ▸ h⟩
  | fault f => simp [execAll, hexec] at h
  | refused r => simp [execAll, hexec] at h

/-- The words of a list of commands, as they stand on the port. -/
def commandWords (is : List Instr) : List Input := is.map (fun i => .command (encode i))

/-- Each step decodes its word back to its command, which does not read the words behind it. -/
theorem run_commandWords (is : List Instr) :
    ∀ {s t : State}, execAll is s = .next t →
      Host.Core.run Sys2Proof.core is.length (withPort (commandWords is ++ s.port) s) = .next t := by
  induction is with
  | nil => exact fun h => h
  | cons i is ih =>
    intro s t h
    obtain ⟨u, hexec, hrest⟩ := execAll_cons_eq_next h
    obtain ⟨hport, -⟩ := exec_answers hexec
    have hfirst : step (withPort (commandWords (i :: is) ++ s.port) s) = .next (withPort (commandWords is ++ s.port) u) :=
      (step_of_decode_ok rfl (decode_encode i)).trans (exec_withPort (commandWords is ++ s.port) hexec :)
    rw [List.length_cons, run_succ_of_next _ hfirst, ← hport]
    exact ih hrest

/-- Settles O9: `run_commandWords` from the state whose port holds what waits behind the words. -/
theorem streamOfWordsRunsAsItsCommands : Obligations.StreamOfWordsRunsAsItsCommands :=
  fun is _ _ _ h => run_commandWords is h

end Sys2Proof.Machine
end

/-! ## What every step keeps: parameters, legal values, invariants (spec/10_state.md) -/

section
namespace Sys2Proof.Machine

/-! ### The two steps that depend on a state machine, by case -/

/-- The five rows of spec/44_midi.md R220. -/
theorem parseByte_cases (b : BitVec 8) (s : State) :
    (128 ≤ b.toNat ∧ recognisedStatus b = true
        ∧ parseByte b s = { s with mpStatus := b, mpData1 := 0, mpState := .awaitData1 })
      ∨ (128 ≤ b.toNat ∧ parseByte b s = { s with mpStatus := 0, mpData1 := 0, mpState := .awaitStatus })
      ∨ (b.toNat < 128 ∧ s.mpState = .awaitStatus ∧ parseByte b s = s)
      ∨ (b.toNat < 128 ∧ s.mpState = .awaitData1
        ∧ parseByte b s = { s with mpData1 := BitVec.ofNat 7 b.toNat, mpState := .awaitData2 })
      ∨ (b.toNat < 128 ∧ s.mpState = .awaitData2
        ∧ parseByte b s =
            { s with
              mq := ringPush s.cfg.mqCap .discard (packNote (kindOf s.mpStatus) s.mpData1 (dataValue b)) s.mq
              mpData1 := 0
              mpState := .awaitData1 }) := by
  rcases Nat.lt_or_ge b.toNat 128 with hdata | hstatus
  · cases hstate : s.mpState with
    | awaitStatus => exact .inr (.inr (.inl ⟨hdata, rfl, parseByte_data_awaitStatus hdata hstate⟩))
    | awaitData1 => exact .inr (.inr (.inr (.inl ⟨hdata, rfl, parseByte_data_awaitData1 hdata hstate⟩)))
    | awaitData2 => exact .inr (.inr (.inr (.inr ⟨hdata, rfl, parseByte_data_awaitData2 hdata hstate⟩)))
  · by_cases hnibble : b.toNat / 16 ∈ [0x8, 0x9, 0xA, 0xB, 0xE]
    · exact .inl ⟨hstatus, (recognisedStatus_iff b).mpr hnibble, parseByte_recognised hstatus hnibble⟩
    · exact .inr (.inl ⟨hstatus, parseByte_unrecognised hstatus hnibble⟩)

/-- From an output in range ENV.STEP only answers, or moves the envelope to an output in range that suits its phase
(spec/41_envelope.md R130). -/
theorem envelopeStep_cases {s : State} (hout : s.envOut.toNat ≤ ONE) :
    (∃ r, envelopeStep s = respond r s)
      ∨ ∃ p n, envelopeStep s = respondEnv (envelopeAt p n s) ∧ n ≤ ONE ∧ (p = .idle → n = 0)
        ∧ (p = .release → 0 < n) := by
  cases hphase : s.envPhase with
  | idle => exact .inl ⟨_, envelopeStep_of_idle hphase⟩
  | attack =>
    cases hrate : s.envArate with
    | none => exact .inl ⟨_, envelopeStep_of_attack_unset hphase hrate⟩
    | some a =>
      rcases Nat.lt_or_ge (s.envOut.toNat + a.toNat) ONE with hlt | hle
      · exact .inr ⟨.attack, _, envelopeStep_of_attack_lt hphase hrate hlt, hlt.le, nofun, nofun⟩
      · exact .inr ⟨.release, ONE, envelopeStep_of_attack_le hphase hrate hle, le_rfl, nofun, fun _ => by decide⟩
  | release =>
    cases hrate : s.envRrate with
    | none => exact .inl ⟨_, envelopeStep_of_release_unset hphase hrate⟩
    | some r =>
      rcases Nat.lt_or_ge r.toNat s.envOut.toNat with hlt | hle
      · exact .inr ⟨.release, _, envelopeStep_of_release_lt hphase hrate hlt, (Nat.sub_le _ _).trans hout, nofun,
          fun _ => Nat.sub_pos_of_lt hlt⟩
      · exact .inr ⟨.idle, 0, envelopeStep_of_release_le hphase hrate hle, Nat.zero_le _, fun _ => rfl, nofun⟩

/-! ### The construction-time parameters (R48) -/

theorem parseByte_cfg (b : BitVec 8) (s : State) : (parseByte b s).cfg = s.cfg := by
  obtain ⟨-, -, h⟩ | ⟨-, h⟩ | ⟨-, -, h⟩ | ⟨-, -, h⟩ | ⟨-, -, h⟩ := parseByte_cases b s <;> rw [h]

theorem envelopeStep_cfg (s : State) : (envelopeStep s).cfg = s.cfg := by
  unfold envelopeStep attackStep releaseStep
  split
  · rfl
  · split <;> rfl
  · split <;> rfl

theorem oscillatorStep_cfg (s : State) : (oscillatorStep s).cfg = s.cfg := by
  unfold oscillatorStep
  split <;> rfl

theorem respondRegister_cfg (x : Option (BitVec 32)) (s : State) : (respondRegister x s).cfg = s.cfg := by
  cases x <;> rfl

@[simp] theorem commandEffect_cfg (i : Instr) (s : State) : (commandEffect i s).cfg = s.cfg := by
  cases i
  case envStep => exact envelopeStep_cfg s
  case oscStep => exact oscillatorStep_cfg s
  case envRda | envRdr | oscRdd => exact respondRegister_cfg _ s
  case midiParse b => exact parseByte_cfg b s
  case envSeta | envSetr | oscSetsr | rbPop | midiPop =>
    dsimp only [commandEffect]
    split <;> rfl
  all_goals rfl

theorem exec_cfg {i : Instr} {s t : State} (h : exec i s = .next t) : t.cfg = s.cfg := by
  obtain ⟨-, -, rfl⟩ := exec_eq_next h
  exact commandEffect_cfg i s

/-- Settles O58: no arm of `step_eq_next` writes the parameters. -/
theorem parametersNeverChange : Obligations.ParametersNeverChange := by
  refine ⟨fun i s t => exec_cfg, fun s t h => ?_⟩
  obtain ⟨-, ⟨-, rfl⟩ | ⟨rest, -, rfl⟩ | ⟨cmd, rest, i, -, hexec⟩ | ⟨cmd, rest, -, rfl⟩⟩ := step_eq_next h
  · rfl
  · rfl
  · exact exec_cfg (s := withPort rest s) hexec
  · rfl

/-! ### Buffers: registers in range and the invariant (R34 to R37) -/

section
variable {w cap : Nat} {r : RingBuf w}

theorem ringLegal_ringClear (h : 1 ≤ cap) (r : RingBuf w) : ringLegal cap (ringClear r) = true :=
  ringLegal_iff.mpr ⟨h, h, Nat.zero_le _⟩

theorem ringLegal_ringEvict (h : 1 ≤ cap) (h' : cap ≤ 65535) (hr : ringLegal cap r = true) :
    ringLegal cap (ringEvict cap r) = true := by
  obtain ⟨-, htail, hsize⟩ := ringLegal_iff.mp hr
  refine ringLegal_iff.mpr ⟨?_, htail, ?_⟩
  · rw [ringEvict_head, advance_toNat _ h h']
    exact Nat.mod_lt _ h
  · rw [ringEvict_size, size_pred_toNat]
    omega

theorem ringLegal_ringAppend (x : BitVec w) (h : 1 ≤ cap) (h' : cap ≤ 65535) (hr : ringLegal cap r = true)
    (hroom : r.size.toNat < cap) : ringLegal cap (ringAppend cap x r) = true := by
  obtain ⟨hhead, -, -⟩ := ringLegal_iff.mp hr
  refine ringLegal_iff.mpr ⟨hhead, ?_, ?_⟩
  · rw [ringAppend_tail, advance_toNat _ h h']
    exact Nat.mod_lt _ h
  · rw [ringAppend_size, size_succ_toNat hroom h']
    omega

/-- A full buffer has room after an eviction. -/
theorem ringEvict_size_lt (h : 1 ≤ cap) (hfull : r.size.toNat = cap) : (ringEvict cap r).size.toNat < cap := by
  rw [ringEvict_size, size_pred_toNat]
  omega

/-- What an eviction of a full buffer and an append to one with room keep, a push keeps. -/
theorem ringPush_induction {P : RingBuf w → Prop} (p : Policy) (x : BitVec w) (hcap : 1 ≤ cap)
    (hsize : r.size.toNat ≤ cap) (hevict : r.size.toNat ≠ 0 → P (ringEvict cap r))
    (happend : ∀ r' : RingBuf w, r'.size.toNat < cap → P r' → P (ringAppend cap x r')) (hr : P r) :
    P (ringPush cap p x r) := by
  by_cases hfull : r.size.toNat = cap
  · cases p with
    | discard => rwa [ringPush_full_discard hfull]
    | overwrite =>
      rw [ringPush_full_overwrite hfull]
      exact happend _ (ringEvict_size_lt hcap hfull) (hevict (by omega))
  · rw [ringPush_of_room hfull]
    exact happend r (by omega) hr

theorem ringLegal_ringPush (p : Policy) (x : BitVec w) (h : 1 ≤ cap) (h' : cap ≤ 65535) (hr : ringLegal cap r = true) :
    ringLegal cap (ringPush cap p x r) = true := by
  obtain ⟨-, -, hsize⟩ := ringLegal_iff.mp hr
  exact ringPush_induction (P := fun r => ringLegal cap r = true) p x h hsize (fun _ => ringLegal_ringEvict h h' hr)
    (fun r' hroom hr' => ringLegal_ringAppend x h h' hr' hroom) hr

theorem ringInv_ringPush (p : Policy) (x : BitVec w) (h : 1 ≤ cap) (h' : cap ≤ 65535) (hr : RingInv cap r) :
    RingInv cap (ringPush cap p x r) :=
  ringPush_induction p x h hr.1 (ringInv_ringEvict h h' hr) (fun _ hroom hr' => ringInv_ringAppend x h h' hr' hroom) hr

/-- A pop that gives an element took it from the head of a buffer that was not empty. -/
theorem ringPop_eq_some {p : Nat → BitVec w} {x : BitVec w} {r' : RingBuf w} (h : ringPop cap p r = some (x, r')) :
    r.size.toNat ≠ 0 ∧ x = memRead p r.slots r.head.toNat ∧ r' = ringEvict cap r := by
  by_cases hempty : r.size.toNat = 0
  · cases (ringPop_empty hempty).symm.trans h
  · cases (ringPop_nonempty hempty).symm.trans h
    exact ⟨hempty, rfl, rfl⟩

theorem ringInv_ringClear (hwf : Memory.wf r.slots) (hin : Memory.within cap r.slots) : RingInv cap (ringClear r) :=
  ⟨Nat.zero_le _, (Nat.zero_mod cap).symm, hwf, hin, fun i hi => absurd hi (Nat.not_lt_zero i)⟩

end

/-! ### Legal values (R20, R21) -/

theorem rateLegal_rateRegister (t sr : BitVec 24) : rateLegal (some (rateRegister t sr)) = true := by
  have hlow := rate_pos t.toNat sr.toNat
  have hhigh := rate_le_ONE t.toNat sr.toNat
  have hlt := ONE_lt_two_pow_32
  rw [rateLegal_some, rateRegister, BitVec.toNat_ofNat, Nat.mod_eq_of_lt (by omega)]
  exact ⟨hlow, hhigh⟩

theorem srLegal_of_ne_zero {sr : BitVec 24} (h : sr ≠ 0) : srLegal (some sr) = true := by
  have hne : sr.toNat ≠ 0 := fun h0 => h (BitVec.eq_of_toNat_eq h0)
  simpa [srLegal] using hne

section
variable {s : State}

theorem stateLegal_envelopeAt (p : EnvPhase) {n : Nat} (hn : n ≤ ONE) (h : stateLegal s = true) :
    stateLegal (envelopeAt p n s) = true := by
  obtain ⟨-, hrest⟩ := stateLegal_iff.mp h
  exact stateLegal_iff.mpr ⟨(envelopeAt_envOut_toNat p (hn.trans_lt ONE_lt_two_pow_32) s).trans_le hn, hrest⟩

theorem stateLegal_envelopeStep (h : stateLegal s = true) : stateLegal (envelopeStep s) = true := by
  obtain ⟨hout, -⟩ := stateLegal_iff.mp h
  obtain ⟨r, hstep⟩ | ⟨p, n, hstep, hn, -⟩ := envelopeStep_cases hout
  · rwa [hstep]
  · rw [hstep]
    exact stateLegal_envelopeAt (s := s) p hn h

theorem stateLegal_rb0 {r : RingBuf 32} (h : stateLegal s = true) (hr : ringLegal s.cfg.rb0Cap r = true) :
    stateLegal { s with rb0 := r } = true := by
  obtain ⟨hout, ha, hr', hsr, -, hrest⟩ := stateLegal_iff.mp h
  exact stateLegal_iff.mpr ⟨hout, ha, hr', hsr, hr, hrest⟩

theorem stateLegal_mq {q : RingBuf 16} (h : stateLegal s = true) (hq : ringLegal s.cfg.mqCap q = true) :
    stateLegal { s with mq := q } = true := by
  obtain ⟨hout, ha, hr, hsr, hrb0, hstatus, -⟩ := stateLegal_iff.mp h
  exact stateLegal_iff.mpr ⟨hout, ha, hr, hsr, hrb0, hstatus, hq⟩

theorem stateLegal_parser {p : ParserState} {b : BitVec 8} (d : BitVec 7) (h : stateLegal s = true)
    (hb : statusLegal p b = true) : stateLegal { s with mpState := p, mpStatus := b, mpData1 := d } = true := by
  obtain ⟨hout, ha, hr, hsr, hrb0, -, hmq⟩ := stateLegal_iff.mp h
  exact stateLegal_iff.mpr ⟨hout, ha, hr, hsr, hrb0, hb, hmq⟩

theorem stateLegal_parseByte (b : BitVec 8) (h : stateLegal s = true) : stateLegal (parseByte b s) = true := by
  obtain ⟨-, -, -, -, -, hstatus, hmq⟩ := stateLegal_iff.mp h
  obtain ⟨hcap, hcap'⟩ := mqCap_range s.cfg
  obtain ⟨-, hb, hparse⟩ | ⟨-, hparse⟩ | ⟨-, -, hparse⟩ | ⟨-, hstate, hparse⟩ | ⟨-, hstate, hparse⟩ :=
    parseByte_cases b s
  all_goals rw [hparse]
  · exact stateLegal_parser 0 h hb
  · exact stateLegal_parser 0 h rfl
  · exact h
  · rw [hstate] at hstatus
    exact stateLegal_parser _ h hstatus
  · rw [hstate] at hstatus
    exact stateLegal_mq (stateLegal_parser (p := .awaitData1) 0 h hstatus) (ringLegal_ringPush _ _ hcap hcap' hmq)

theorem stateLegal_clearRegisters (s : State) : stateLegal (clearRegisters s) = true :=
  stateLegal_iff.mpr ⟨Nat.zero_le _, rfl, rfl, rfl, ringLegal_ringClear (rb0Cap_range s.cfg).1 s.rb0, rfl,
    ringLegal_ringClear (mqCap_range s.cfg).1 s.mq⟩

theorem stateLegal_commandEffect (i : Instr) (h : stateLegal s = true) : stateLegal (commandEffect i s) = true := by
  obtain ⟨hout, ha, hr, hsr, hrb0, hstatus, hmq⟩ := stateLegal_iff.mp h
  obtain ⟨hrbCap, hrbCap'⟩ := rb0Cap_range s.cfg
  obtain ⟨hmqCap, hmqCap'⟩ := mqCap_range s.cfg
  cases i
  case sysReset => exact stateLegal_clearRegisters s
  case envStep => exact stateLegal_envelopeStep h
  case envSeta t sr =>
    dsimp only [commandEffect]
    split
    · exact h
    · exact stateLegal_iff.mpr ⟨hout, rateLegal_rateRegister t sr, hr, hsr, hrb0, hstatus, hmq⟩
  case envSetr t sr =>
    dsimp only [commandEffect]
    split
    · exact h
    · exact stateLegal_iff.mpr ⟨hout, ha, rateLegal_rateRegister t sr, hsr, hrb0, hstatus, hmq⟩
  case envRda | envRdr | oscRdd =>
    dsimp only [commandEffect, respondRegister]
    split <;> exact h
  case oscStep =>
    dsimp only [commandEffect, oscillatorStep]
    split <;> exact h
  case oscSetsr sr =>
    dsimp only [commandEffect]
    split
    · exact h
    · exact stateLegal_iff.mpr ⟨hout, ha, hr, srLegal_of_ne_zero ‹_›, hrb0, hstatus, hmq⟩
  case rbPush w => exact stateLegal_rb0 (s := s) h (ringLegal_ringPush _ w hrbCap hrbCap' hrb0)
  case rbPop =>
    dsimp only [commandEffect]
    split
    · exact h
    · obtain ⟨-, -, rfl⟩ := ringPop_eq_some ‹_›
      exact stateLegal_rb0 (s := s) h (ringLegal_ringEvict hrbCap hrbCap' hrb0)
  case rbClear => exact stateLegal_rb0 (s := s) h (ringLegal_ringClear hrbCap s.rb0)
  case midiParse b => exact stateLegal_parseByte b h
  case midiPop =>
    dsimp only [commandEffect]
    split
    · exact h
    · obtain ⟨-, -, rfl⟩ := ringPop_eq_some ‹_›
      exact stateLegal_mq (s := s) h (ringLegal_ringEvict hmqCap hmqCap' hmq)
  all_goals exact h

end

/-- Settles O56: a command answers only from a legal state, and `stateLegal_commandEffect` is about each command's effect. -/
theorem commandsKeepRegistersLegal : Obligations.CommandsKeepRegistersLegal := by
  intro i s t h
  obtain ⟨hlegal, -, rfl⟩ := exec_eq_next h
  exact ⟨hlegal, stateLegal_commandEffect i hlegal⟩

end Sys2Proof.Machine
end

/-! ## The invariants of spec/10_state.md sections 2 to 5, kept by every step -/

section
namespace Sys2Proof.Machine

/-! ### A push, on the logical sequence (spec/43_ringbuffer.md R191) -/

section
variable {α : Type} {cap : Nat} {p : Policy} {x : α} {q : List α}

theorem queuePush_of_room (h : q.length < cap) : queuePush cap p x q = q ++ [x] := if_pos h

theorem queuePush_full_overwrite (h : q.length = cap) : queuePush cap .overwrite x q = q.tail ++ [x] := by
  rw [queuePush, if_neg h.not_lt]

theorem queuePush_full_discard (h : q.length = cap) : queuePush cap .discard x q = q := by
  rw [queuePush, if_neg h.not_lt]

theorem mem_queuePush {y : α} (h : y ∈ queuePush cap p x q) : y ∈ q ∨ y = x := by
  unfold queuePush at h
  split at h
  · simpa using h
  · cases p with
    | discard => exact .inl h
    | overwrite => exact (List.mem_append.mp h).imp List.mem_of_mem_tail List.mem_singleton.mp

end

/-- `ringPush` refines `queuePush`. -/
theorem ringSeq_ringPush {w cap : Nat} {r : RingBuf w} (powerOn : Nat → BitVec w) (p : Policy) (x : BitVec w)
    (h : 1 ≤ cap) (h' : cap ≤ 65535) (hr : RingInv cap r) :
    ringSeq cap powerOn (ringPush cap p x r) = queuePush cap p x (ringSeq cap powerOn r) := by
  obtain ⟨hsize, htail, -⟩ := id hr
  have hlen := ringSeq_length cap powerOn r
  by_cases hfull : r.size.toNat = cap
  · cases p with
    | discard => rw [ringPush_full_discard hfull, queuePush_full_discard (hlen.trans hfull)]
    | overwrite =>
      obtain ⟨-, htail', -⟩ := ringInv_ringEvict h h' hr (by omega)
      rw [ringPush_full_overwrite hfull, queuePush_full_overwrite (hlen.trans hfull),
        ringSeq_ringAppend powerOn x _ h' (ringEvict_size_lt h hfull) htail', ringSeq_ringEvict powerOn r h h']
  · have hroom : r.size.toNat < cap := by omega
    rw [ringPush_of_room hfull, queuePush_of_room (hlen.trans_lt hroom), ringSeq_ringAppend powerOn x r h' hroom htail]

/-! ### The invariants, command by command -/

/-- R40 in both its readings: 0x00 is no recognised status byte. -/
theorem statusLegal_iff {p : ParserState} {b : BitVec 8} :
    statusLegal p b = true ↔ (p = .awaitStatus ↔ b = 0) ∧ (p ≠ .awaitStatus → recognisedStatus b = true) := by
  have hzero : recognisedStatus b = true → b ≠ 0 := by
    rintro h rfl
    exact absurd h (by decide)
  cases p
  case awaitStatus => simp [statusLegal]
  case awaitData1 | awaitData2 => simpa [statusLegal] using hzero

theorem oscDelta_of_sr_unset {s : State} (h : OscInv s) (hsr : s.oscSr = none) : s.oscDelta = none := by
  rw [h, hsr]

theorem oscDelta_of_freq_unset {s : State} (h : OscInv s) (hfreq : s.oscFreq = none) : s.oscDelta = none := by
  rw [h, hfreq]
  cases s.oscSr <;> rfl

section
variable {s : State}

/-- A reset needs of the state before it no more than the canonical form of its storages. -/
theorem blockInv_clearRegisters_of_slots (hrbWf : Memory.wf s.rb0.slots) (hrbIn : Memory.within s.cfg.rb0Cap s.rb0.slots)
    (hmqWf : Memory.wf s.mq.slots) (hmqIn : Memory.within s.cfg.mqCap s.mq.slots) : BlockInv (clearRegisters s) := by
  have henv : EnvInv (clearRegisters s) := ⟨Nat.zero_le _, fun _ => rfl, nofun⟩
  have hparser : ParserInv (clearRegisters s) :=
    ⟨iff_of_true rfl rfl, fun h => absurd rfl h, fun _ => rfl⟩
  have hnotes : NotesInv (clearRegisters s) := fun n hn => absurd hn List.not_mem_nil
  exact ⟨stateLegal_clearRegisters s, henv, rfl, ringInv_ringClear hrbWf hrbIn, ringInv_ringClear hmqWf hmqIn, hparser,
    hnotes⟩

theorem blockInv_clearRegisters (h : BlockInv s) : BlockInv (clearRegisters s) := by
  obtain ⟨-, -, -, ⟨-, -, hrbWf, hrbIn, -⟩, ⟨-, -, hmqWf, hmqIn, -⟩, -, -⟩ := h
  exact blockInv_clearRegisters_of_slots hrbWf hrbIn hmqWf hmqIn

theorem blockInv_envelopeStep (h : BlockInv s) : BlockInv (envelopeStep s) := by
  obtain ⟨hlegal, ⟨hout, -⟩, hrest⟩ := id h
  obtain ⟨r, hstep⟩ | ⟨p, n, hstep, hn, hidle, hrelease⟩ := envelopeStep_cases hout
  · rw [hstep]
    exact h
  · rw [hstep]
    have houtNat := envelopeAt_envOut_toNat p (hn.trans_lt ONE_lt_two_pow_32) s
    have henv : EnvInv (envelopeAt p n s) :=
      ⟨houtNat.trans_le hn, fun hp => BitVec.eq_of_toNat_eq (houtNat.trans (hidle hp)),
        fun hp => (hrelease hp).trans_eq houtNat.symm⟩
    exact ⟨stateLegal_envelopeAt (s := s) p hn hlegal, henv, hrest⟩

theorem oscInv_oscSetsr (sr : BitVec 24) (h : OscInv s) : OscInv (commandEffect (.oscSetsr sr) s) := by
  by_cases hsr : sr = 0
  · rw [commandEffect, if_pos hsr]
    exact h
  · rw [commandEffect, if_neg hsr]
    cases hfreq : s.oscFreq with
    | none => exact oscDelta_of_freq_unset (s := s) h hfreq
    | some f => rfl

theorem oscInv_oscSetf (w : BitVec 32) (h : OscInv s) : OscInv (commandEffect (.oscSetf w) s) := by
  rw [commandEffect]
  cases hsr : s.oscSr with
  | none => exact oscDelta_of_sr_unset (s := s) h hsr
  | some sr => rfl

theorem blockInv_rb0 {r : RingBuf 32} (h : BlockInv s) (hlegal : ringLegal s.cfg.rb0Cap r = true)
    (hr : RingInv s.cfg.rb0Cap r) : BlockInv { s with rb0 := r } := by
  obtain ⟨hstate, henv, hosc, -, hrest⟩ := h
  exact ⟨stateLegal_rb0 hstate hlegal, henv, hosc, hr, hrest⟩

theorem blockInv_mq {q : RingBuf 16} (h : BlockInv s) (hlegal : ringLegal s.cfg.mqCap q = true)
    (hq : RingInv s.cfg.mqCap q) (hnotes : ∀ n ∈ ringSeq s.cfg.mqCap Config.mqPowerOn q, n.toNat / 2 ^ 14 ≤ 2) :
    BlockInv { s with mq := q } := by
  obtain ⟨hstate, henv, hosc, hrb0, -, hparser, -⟩ := h
  exact ⟨stateLegal_mq hstate hlegal, henv, hosc, hrb0, hq, hparser, hnotes⟩

theorem blockInv_parser {p : ParserState} {b : BitVec 8} {d : BitVec 7} (h : BlockInv s)
    (hb : statusLegal p b = true) (hd : p ≠ .awaitData2 → d = 0) :
    BlockInv { s with mpState := p, mpStatus := b, mpData1 := d } := by
  obtain ⟨hstate, henv, hosc, hrb0, hmq, -, hnotes⟩ := h
  have hparser : ParserInv { s with mpState := p, mpStatus := b, mpData1 := d } := by
    obtain ⟨hzero, hrecognised⟩ := statusLegal_iff.mp hb
    exact ⟨hzero, hrecognised, hd⟩
  exact ⟨stateLegal_parser d hstate hb, henv, hosc, hrb0, hmq, hparser, hnotes⟩

theorem packNote_kind_le_two (k : NoteKind) (pitch velocity : BitVec 7) :
    (packNote k pitch velocity).toNat / 2 ^ 14 ≤ 2 := by
  have hk := noteKindCode_le_two k
  have hp := pitch.isLt
  have hv := velocity.isLt
  rw [packNote_toNat]
  omega

theorem blockInv_parseByte (b : BitVec 8) (h : BlockInv s) : BlockInv (parseByte b s) := by
  obtain ⟨hlegal, -, -, -, hmq, -, hnotes⟩ := id h
  obtain ⟨-, -, -, -, -, hstatus, hmqLegal⟩ := stateLegal_iff.mp hlegal
  obtain ⟨hcap, hcap'⟩ := mqCap_range s.cfg
  obtain ⟨-, hb, hparse⟩ | ⟨-, hparse⟩ | ⟨-, -, hparse⟩ | ⟨-, hstate, hparse⟩ | ⟨-, hstate, hparse⟩ :=
    parseByte_cases b s
  all_goals rw [hparse]
  · exact blockInv_parser h hb fun _ => rfl
  · exact blockInv_parser h rfl fun _ => rfl
  · exact h
  · rw [hstate] at hstatus
    exact blockInv_parser (s := s) h hstatus fun hne => absurd rfl hne
  · rw [hstate] at hstatus
    have hparser : BlockInv { s with mpState := .awaitData1, mpStatus := s.mpStatus, mpData1 := 0 } :=
      blockInv_parser h hstatus fun _ => rfl
    refine blockInv_mq hparser (ringLegal_ringPush _ _ hcap hcap' hmqLegal) (ringInv_ringPush _ _ hcap hcap' hmq) ?_
    intro n hn
    rw [ringSeq_ringPush _ _ _ hcap hcap' hmq] at hn
    obtain hold | rfl := mem_queuePush hn
    · exact hnotes n hold
    · exact packNote_kind_le_two _ _ _

theorem blockInv_commandEffect (i : Instr) (h : BlockInv s) : BlockInv (commandEffect i s) := by
  obtain ⟨hlegal, henv, hosc, hrb0, hmq, hparser, hnotes⟩ := id h
  have hlegal' := stateLegal_commandEffect i hlegal
  obtain ⟨-, -, -, -, hrb0Legal, -, hmqLegal⟩ := stateLegal_iff.mp hlegal
  obtain ⟨hrbCap, hrbCap'⟩ := rb0Cap_range s.cfg
  obtain ⟨hmqCap, hmqCap'⟩ := mqCap_range s.cfg
  cases i
  case sysReset => exact blockInv_clearRegisters (s := s) h
  case envStep => exact blockInv_envelopeStep h
  case envGate => exact ⟨hlegal, ⟨henv.1, nofun, nofun⟩, hosc, hrb0, hmq, hparser, hnotes⟩
  case envSeta | envSetr =>
    refine ⟨hlegal', ?_⟩
    dsimp only [commandEffect]
    split <;> exact ⟨henv, hosc, hrb0, hmq, hparser, hnotes⟩
  case envRda | envRdr | oscRdd =>
    dsimp only [commandEffect, respondRegister]
    split <;> exact h
  case oscStep =>
    dsimp only [commandEffect, oscillatorStep]
    split <;> exact h
  case oscSetsr sr =>
    refine ⟨hlegal', ?_, oscInv_oscSetsr sr hosc, ?_⟩
    all_goals dsimp only [commandEffect]
    · split <;> exact henv
    · split <;> exact ⟨hrb0, hmq, hparser, hnotes⟩
  case oscSetf w => exact ⟨hlegal, henv, oscInv_oscSetf w hosc, hrb0, hmq, hparser, hnotes⟩
  case rbPush w =>
    exact blockInv_rb0 (s := s) h (ringLegal_ringPush _ w hrbCap hrbCap' hrb0Legal)
      (ringInv_ringPush _ w hrbCap hrbCap' hrb0)
  case rbPop =>
    dsimp only [commandEffect]
    split
    · exact h
    · obtain ⟨hne, -, rfl⟩ := ringPop_eq_some ‹_›
      exact blockInv_rb0 (s := s) h (ringLegal_ringEvict hrbCap hrbCap' hrb0Legal)
        (ringInv_ringEvict hrbCap hrbCap' hrb0 hne)
  case rbClear =>
    obtain ⟨-, -, hwf, hin, -⟩ := hrb0
    exact blockInv_rb0 (s := s) h (ringLegal_ringClear hrbCap s.rb0) (ringInv_ringClear hwf hin)
  case midiParse b => exact blockInv_parseByte b h
  case midiPop =>
    dsimp only [commandEffect]
    split
    · exact h
    · obtain ⟨hne, -, rfl⟩ := ringPop_eq_some ‹_›
      exact blockInv_mq (s := s) h (ringLegal_ringEvict hmqCap hmqCap' hmqLegal)
        (ringInv_ringEvict hmqCap hmqCap' hmq hne)
        fun n hn => hnotes n (List.mem_of_mem_tail (ringSeq_ringEvict _ _ hmqCap hmqCap' ▸ hn))
  all_goals exact h

theorem blockInv_exec {i : Instr} {t : State} (h : BlockInv s) (hexec : exec i s = .next t) : BlockInv t := by
  obtain ⟨-, -, rfl⟩ := exec_eq_next hexec
  exact blockInv_commandEffect i h

end

/-- Settles O53: each arm of `step_eq_next` keeps `BlockInv`, a command by `blockInv_commandEffect`. -/
theorem stepKeepsTheInvariants : Obligations.StepKeepsTheInvariants := by
  intro s t h hstep
  obtain ⟨-, ⟨-, rfl⟩ | ⟨rest, -, rfl⟩ | ⟨cmd, rest, i, -, hexec⟩ | ⟨cmd, rest, -, rfl⟩⟩ := step_eq_next hstep
  · exact h
  · exact blockInv_clearRegisters h
  · exact blockInv_exec (s := withPort rest s) h hexec
  · exact h

/-- Right after power-on every register holds its reset value and no slot is listed, so a reset would change nothing. -/
theorem clearRegisters_resetWith (c : Config) : clearRegisters (State.resetWith c) = State.resetWith c := rfl

theorem blockInv_resetWith (c : Config) : BlockInv (State.resetWith c) := by
  obtain ⟨hrb0, hmq⟩ := resetWith_slots_wf c
  rw [← clearRegisters_resetWith]
  exact blockInv_clearRegisters_of_slots hrb0 nofun hmq nofun

/-- Settles O54: `blockInv_resetWith`, for the unknown parameters of `State.reset` too. -/
theorem resetHasTheInvariants : Obligations.ResetHasTheInvariants := ⟨blockInv_resetWith, blockInv_resetWith _⟩

end Sys2Proof.Machine
end

/-! ## The bookkeeping of the buffers cannot be observed (spec/10_state.md section 4) -/

section
namespace Sys2Proof.Machine

/-! ### The logical sequence, element by element -/

section
variable {w cap : Nat} {p : Nat → BitVec w}

theorem ringSeq_getElem? {r : RingBuf w} {i : Nat} (h : i < r.size.toNat) :
    (ringSeq cap p r)[i]? = some (ringAt cap p r i) := by
  simp [ringSeq, h]

/-- Two buffers in order that hold the same logical sequence. -/
def SameQueue (cap : Nat) (p : Nat → BitVec w) (r q : RingBuf w) : Prop :=
  (ringLegal cap r = true ∧ RingInv cap r) ∧ (ringLegal cap q = true ∧ RingInv cap q)
    ∧ ringSeq cap p r = ringSeq cap p q

variable {r q : RingBuf w} (h : SameQueue cap p r q)
include h

theorem SameQueue.size_eq : r.size = q.size := by
  obtain ⟨-, -, hseq⟩ := h
  apply BitVec.eq_of_toNat_eq
  rw [← ringSeq_length cap p r, hseq, ringSeq_length]

theorem SameQueue.ringAt_eq {i : Nat} (hi : i < r.size.toNat) : ringAt cap p r i = ringAt cap p q i := by
  have hi' : i < q.size.toNat := h.size_eq ▸ hi
  obtain ⟨-, -, hseq⟩ := h
  apply Option.some.inj
  rw [← ringSeq_getElem? hi, ← ringSeq_getElem? hi', hseq]

theorem SameQueue.ringSeq_ringPush (hcap : 1 ≤ cap) (hcap' : cap ≤ 65535) (policy : Policy) (x : BitVec w) :
    ringSeq cap p (ringPush cap policy x r) = ringSeq cap p (ringPush cap policy x q) := by
  obtain ⟨⟨-, hr⟩, ⟨-, hq⟩, hseq⟩ := h
  rw [Machine.ringSeq_ringPush p policy x hcap hcap' hr, hseq, Machine.ringSeq_ringPush p policy x hcap hcap' hq]

/-- The two pop alike: nothing, or the same element, with the same sequence left. -/
theorem SameQueue.ringPop_cases (hcap : 1 ≤ cap) (hcap' : cap ≤ 65535) :
    (ringPop cap p r = none ∧ ringPop cap p q = none)
      ∨ ∃ x, ringPop cap p r = some (x, ringEvict cap r) ∧ ringPop cap p q = some (x, ringEvict cap q)
        ∧ ringSeq cap p (ringEvict cap r) = ringSeq cap p (ringEvict cap q) := by
  have hsize := h.size_eq
  obtain ⟨⟨hr, -⟩, ⟨hq, -⟩, hseq⟩ := h
  obtain ⟨hrhead, -⟩ := ringLegal_iff.mp hr
  obtain ⟨hqhead, -⟩ := ringLegal_iff.mp hq
  by_cases hempty : r.size.toNat = 0
  · exact .inl ⟨ringPop_empty hempty, ringPop_empty (hsize ▸ hempty)⟩
  · have hempty' : q.size.toNat ≠ 0 := hsize ▸ hempty
    rw [ringSeq_eq_cons hempty hrhead hcap hcap', ringSeq_eq_cons hempty' hqhead hcap hcap'] at hseq
    obtain ⟨hhead, htail⟩ := List.cons.inj hseq
    exact .inr ⟨_, ringPop_nonempty hempty, hhead ▸ ringPop_nonempty hempty', htail⟩

end

/-! ### The same view with other buffers -/

/-- With the sequences of its own, other buffers give the same view. -/
theorem sameView_withOutside {s : State} {r : RingBuf 32} {q : RingBuf 16}
    (hrb0 : rb0Seq s = ringSeq s.cfg.rb0Cap Config.rb0PowerOn r) (hmq : mqSeq s = ringSeq s.cfg.mqCap Config.mqPowerOn q) :
    SameView s (withOutside r q s.port s) :=
  ⟨rfl, rfl, rfl, rfl, rfl, rfl, rfl, rfl, rfl, rfl, rfl, hrb0, hmq, rfl, rfl, rfl⟩

/-- Two states with the same view differ in their buffers alone. -/
theorem eq_withOutside_of_sameView {a b : State} (h : SameView a b) : b = withOutside b.rb0 b.mq a.port a := by
  obtain ⟨h1, h2, h3, h4, h5, h6, h7, h8, h9, h10, h11, -, -, h12, h13, h14⟩ := h
  cases a
  cases b
  subst h1 h2 h3 h4 h5 h6 h7 h8 h9 h10 h11 h12 h13 h14
  rfl

theorem sameView_respond {a b : State} (r : Response) (h : SameView a b) : SameView (respond r a) (respond r b) := by
  obtain ⟨h1, h2, h3, h4, h5, h6, h7, h8, h9, h10, h11, h12, h13, h14, h15, hout⟩ := h
  exact ⟨h1, h2, h3, h4, h5, h6, h7, h8, h9, h10, h11, h12, h13, h14, h15, congrArg (· ++ [responseWord r]) hout⟩

section
variable {s : State} {r : RingBuf 32} {q : RingBuf 16} (hrb0 : SameQueue s.cfg.rb0Cap Config.rb0PowerOn s.rb0 r)
  (hmq : SameQueue s.cfg.mqCap Config.mqPowerOn s.mq q)
include hrb0 hmq

theorem sameView_parseByte (b : BitVec 8) : SameView (parseByte b s) (parseByte b (withOutside r q s.port s)) := by
  obtain ⟨hcap, hcap'⟩ := mqCap_range s.cfg
  obtain ⟨-, -, hrb0Seq⟩ := hrb0
  obtain ⟨-, -, hmqSeq⟩ := id hmq
  simp only [parseByte, parseStatusByte, parseDataByte, withOutside]
  split
  · split <;> exact sameView_withOutside hrb0Seq hmqSeq
  · split
    · exact sameView_withOutside hrb0Seq hmqSeq
    · exact sameView_withOutside hrb0Seq hmqSeq
    · exact sameView_withOutside hrb0Seq (hmq.ringSeq_ringPush hcap hcap' _ _)

theorem sameView_commandEffect_of_no_buffers {i : Instr} (h : usesBuffers i = false) :
    SameView (commandEffect i s) (commandEffect i (withOutside r q s.port s)) := by
  obtain ⟨-, -, hrb0Seq⟩ := hrb0
  obtain ⟨-, -, hmqSeq⟩ := hmq
  obtain ⟨hrb0Same, hmqSame⟩ := buffers_commandEffect s h
  obtain ⟨hport, -⟩ := answers_commandEffect i s
  rw [commandEffect_withOutside r q s.port s h, ← hport]
  refine sameView_withOutside ?_ ?_
  · rwa [rb0Seq, hrb0Same, commandEffect_cfg]
  · rwa [mqSeq, hmqSame, commandEffect_cfg]

/-- Only the sequences reach the answers: RB.SIZE, MIDI.AVAIL and MIDI.STAT answer their lengths, RB.AT and the pops an
element. -/
theorem sameView_commandEffect_withOutside (i : Instr) (hidx : IndexWithinSize i s) :
    SameView (commandEffect i s) (commandEffect i (withOutside r q s.port s)) := by
  obtain ⟨hrbCap, hrbCap'⟩ := rb0Cap_range s.cfg
  obtain ⟨hmqCap, hmqCap'⟩ := mqCap_range s.cfg
  obtain ⟨-, -, hrb0Seq⟩ := id hrb0
  obtain ⟨-, -, hmqSeq⟩ := id hmq
  cases i
  case sysReset => exact sameView_withOutside (r := ringClear r) (q := ringClear q) rfl rfl
  case rbPush w => exact sameView_withOutside (hrb0.ringSeq_ringPush hrbCap hrbCap' _ w) hmqSeq
  case rbPop =>
    dsimp only [commandEffect, withOutside]
    obtain ⟨hnone, hnone'⟩ | ⟨x, hsome, hsome', hseq⟩ := hrb0.ringPop_cases hrbCap hrbCap'
    · simp only [hnone, hnone']
      exact sameView_withOutside hrb0Seq hmqSeq
    · simp only [hsome, hsome']
      exact sameView_withOutside hseq hmqSeq
  case rbAt idx =>
    simp only [commandEffect, withOutside, hrb0.ringAt_eq hidx]
    exact sameView_withOutside hrb0Seq hmqSeq
  case rbClear => exact sameView_withOutside (r := ringClear r) rfl hmqSeq
  case rbSize =>
    simp only [commandEffect, withOutside, hrb0.size_eq]
    exact sameView_withOutside hrb0Seq hmqSeq
  case midiParse b => exact sameView_respond .ok (sameView_parseByte hrb0 hmq b)
  case midiAvail =>
    simp only [commandEffect, withOutside, hmq.size_eq]
    exact sameView_withOutside hrb0Seq hmqSeq
  case midiStat =>
    simp only [commandEffect, withOutside, midiData, hmq.size_eq]
    exact sameView_withOutside hrb0Seq hmqSeq
  case midiPop =>
    dsimp only [commandEffect, withOutside]
    obtain ⟨hnone, hnone'⟩ | ⟨x, hsome, hsome', hseq⟩ := hmq.ringPop_cases hmqCap hmqCap'
    · simp only [hnone, hnone']
      exact sameView_withOutside hrb0Seq hmqSeq
    · simp only [hsome, hsome']
      exact sameView_withOutside hrb0Seq hseq
  all_goals exact sameView_commandEffect_of_no_buffers hrb0 hmq rfl

end

/-! ### Steps from states with the same view -/

/-- Two answers that stop alike, or go on to states with the same view. -/
def AlikeAnswers (x y : StepResult) : Prop :=
  (∀ s, x = .next s → ∃ t, y = .next t ∧ SameView s t)
    ∧ (∀ f, x = .fault f → y = .fault f)
    ∧ ∀ r, x = .refused r → y = .refused r

theorem alikeAnswers_next {s t : State} (h : SameView s t) : AlikeAnswers (.next s) (.next t) :=
  ⟨fun _ hs => ⟨t, rfl, Host.Outcome.next.inj hs ▸ h⟩, fun _ hf => (nomatch hf), fun _ hr => (nomatch hr)⟩

theorem alikeAnswers_fault (f : Fault) : AlikeAnswers (.fault f) (.fault f) :=
  ⟨fun _ hs => (nomatch hs), fun _ h => h, fun _ hr => (nomatch hr)⟩

theorem alikeAnswers_whenLegal {a b s t : State} (ha : BlockInv a) (hb : BlockInv b) (h : SameView s t) :
    AlikeAnswers (whenLegal a (.next s)) (whenLegal b (.next t)) := by
  rw [whenLegal_of_legal _ ha.1, whenLegal_of_legal _ hb.1]
  exact alikeAnswers_next h

section
variable {a b : State} (ha : BlockInv a) (hb : BlockInv b) (h : SameView a b)

include h in
theorem sameView_withPort (p : List Input) : SameView (withPort p a) (withPort p b) := by
  obtain ⟨h1, h2, h3, h4, h5, h6, h7, h8, h9, h10, h11, h12, h13, h14, -, hout⟩ := h
  exact ⟨h1, h2, h3, h4, h5, h6, h7, h8, h9, h10, h11, h12, h13, h14, rfl, hout⟩

include h in
theorem sameView_clearRegisters : SameView (clearRegisters a) (clearRegisters b) := by
  obtain ⟨-, -, -, -, -, -, -, -, -, -, -, -, -, hcfg, hport, hout⟩ := h
  exact ⟨rfl, rfl, rfl, rfl, rfl, rfl, rfl, rfl, rfl, rfl, rfl, rfl, rfl, hcfg, hport, hout⟩

include ha hb h

theorem sameQueue_rb0 : SameQueue a.cfg.rb0Cap Config.rb0PowerOn a.rb0 b.rb0 := by
  obtain ⟨-, -, -, -, -, -, -, -, -, -, -, hseq, -, hcfg, -⟩ := h
  obtain ⟨hlegal, -, -, hinv, -⟩ := ha
  obtain ⟨hlegal', -, -, hinv', -⟩ := hb
  obtain ⟨-, -, -, -, hring, -⟩ := stateLegal_iff.mp hlegal
  obtain ⟨-, -, -, -, hring', -⟩ := stateLegal_iff.mp hlegal'
  exact ⟨⟨hring, hinv⟩, hcfg ▸ ⟨hring', hinv'⟩, by rwa [rb0Seq, rb0Seq, ← hcfg] at hseq⟩

theorem sameQueue_mq : SameQueue a.cfg.mqCap Config.mqPowerOn a.mq b.mq := by
  obtain ⟨-, -, -, -, -, -, -, -, -, -, -, -, hseq, hcfg, -⟩ := h
  obtain ⟨hlegal, -, -, -, hinv, -⟩ := ha
  obtain ⟨hlegal', -, -, -, hinv', -⟩ := hb
  obtain ⟨-, -, -, -, -, -, hring⟩ := stateLegal_iff.mp hlegal
  obtain ⟨-, -, -, -, -, -, hring'⟩ := stateLegal_iff.mp hlegal'
  exact ⟨⟨hring, hinv⟩, hcfg ▸ ⟨hring', hinv'⟩, by rwa [mqSeq, mqSeq, ← hcfg] at hseq⟩

/-- A command completes alike, or is RB.AT beyond the one size both have. -/
theorem alikeAnswers_exec (i : Instr) : AlikeAnswers (exec i a) (exec i b) := by
  obtain ⟨hlegal, -⟩ := id ha
  obtain ⟨hlegal', -⟩ := id hb
  have hrb0 := sameQueue_rb0 ha hb h
  have hidx : IndexWithinSize i b ↔ IndexWithinSize i a := by
    unfold IndexWithinSize
    rw [hrb0.size_eq]
  by_cases hin : IndexWithinSize i a
  · rw [exec_of_legal hlegal hin, exec_of_legal hlegal' (hidx.mpr hin)]
    have hview := sameView_commandEffect_withOutside hrb0 (sameQueue_mq ha hb h) i hin
    rw [← eq_withOutside_of_sameView h] at hview
    exact alikeAnswers_next hview
  · rw [exec_of_not_indexWithinSize hlegal hin, exec_of_not_indexWithinSize hlegal' (mt hidx.mp hin)]
    exact alikeAnswers_fault _

theorem alikeAnswers_step : AlikeAnswers (step a) (step b) := by
  obtain ⟨-, -, -, -, -, -, -, -, -, -, -, -, -, -, hport, -⟩ := id h
  match hevent : a.port with
  | [] =>
    rw [step_of_port_nil hevent, step_of_port_nil (hport ▸ hevent)]
    exact alikeAnswers_whenLegal ha hb h
  | .reset :: rest =>
    rw [step_of_port_reset hevent, step_of_port_reset (hport ▸ hevent)]
    exact alikeAnswers_whenLegal (a := withPort rest a) (b := withPort rest b) ha hb
        (sameView_clearRegisters (sameView_withPort h rest))
  | .command cmd :: rest =>
    have hevent' : b.port = .command cmd :: rest := hport ▸ hevent
    cases hdecode : decode cmd with
    | ok i =>
      rw [step_of_decode_ok hevent hdecode, step_of_decode_ok hevent' hdecode]
      exact alikeAnswers_exec (a := withPort rest a) (b := withPort rest b) ha hb (sameView_withPort h rest) i
    | error reason =>
      rw [step_of_decode_error hevent hdecode, step_of_decode_error hevent' hdecode]
      exact alikeAnswers_whenLegal (a := withPort rest a) (b := withPort rest b) ha hb
        (sameView_respond (.err .illegal) (sameView_withPort h rest))

end

/-- Settles O60: `alikeAnswers_step`, whose core is `sameView_commandEffect_withOutside`. -/
theorem bufferBookkeepingIsUnobservable : Obligations.BufferBookkeepingIsUnobservable :=
  fun _ _ ha hb h => alikeAnswers_step ha hb h

end Sys2Proof.Machine
end

/-! ## Sequences of RB and MIDI commands (spec/43_ringbuffer.md section 3, spec/44_midi.md section 3) -/

section
namespace Sys2Proof.Machine

/-! ### Many pushes, on the logical sequence -/

/-- Pushes one after the other. -/
def queuePushAll {α : Type} (cap : Nat) (p : Policy) (xs q : List α) : List α :=
  xs.foldl (fun q x => queuePush cap p x q) q

section
variable {α : Type} {cap : Nat}

/-- Under DISCARD the first elements stay. -/
theorem queuePushAll_discard (xs : List α) :
    ∀ {q : List α}, q.length ≤ cap → queuePushAll cap .discard xs q = (q ++ xs).take cap := by
  induction xs with
  | nil =>
    intro q h
    rw [List.append_nil, List.take_of_length_le h]
    rfl
  | cons x xs ih =>
    intro q h
    rw [queuePushAll, List.foldl_cons]
    rcases Nat.lt_or_eq_of_le h with hroom | hfull
    · rw [queuePush_of_room hroom]
      refine (ih (by simpa using hroom)).trans ?_
      rw [List.append_assoc, List.singleton_append]
    · rw [queuePush_full_discard hfull]
      refine (ih h).trans ?_
      rw [List.take_left' hfull, List.take_left' hfull]

/-- Under OVERWRITE the last elements stay. -/
theorem queuePushAll_overwrite (xs : List α) (hcap : 1 ≤ cap) :
    ∀ {q : List α}, q.length ≤ cap →
      queuePushAll cap .overwrite xs q = (q ++ xs).drop (q.length + xs.length - cap) := by
  induction xs with
  | nil =>
    intro q h
    rw [List.append_nil, List.length_nil, Nat.add_zero, Nat.sub_eq_zero_of_le h]
    rfl
  | cons x xs ih =>
    intro q h
    rw [queuePushAll, List.foldl_cons]
    rcases Nat.lt_or_eq_of_le h with hroom | hfull
    · have hlen : (q ++ [x]).length + xs.length = q.length + (x :: xs).length := by
        simp only [List.length_append, List.length_cons, List.length_nil]
        omega
      rw [queuePush_of_room hroom]
      refine (ih (by simpa using hroom)).trans ?_
      rw [hlen, List.append_assoc, List.singleton_append]
    · obtain ⟨y, ys, rfl⟩ := List.exists_cons_of_length_pos (hcap.trans_eq hfull.symm)
      have hlen : (y :: ys).length + (x :: xs).length - cap = (ys ++ [x]).length + xs.length - cap + 1 := by
        simp only [List.length_append, List.length_cons, List.length_nil] at hfull ⊢
        omega
      rw [queuePush_full_overwrite hfull]
      refine (ih (by simpa using h)).trans ?_
      rw [hlen, List.cons_append, List.drop_succ_cons, List.tail_cons, List.append_assoc, List.singleton_append]

end

/-! ### The RB commands on the logical sequence (R191, R192) -/

section
variable {s : State}

theorem rb0Seq_rbPush (w : BitVec 32) (hinv : RingInv s.cfg.rb0Cap s.rb0) :
    rb0Seq (commandEffect (.rbPush w) s) = queuePush s.cfg.rb0Cap s.cfg.rb0Policy w (rb0Seq s) := by
  obtain ⟨hcap, hcap'⟩ := rb0Cap_range s.cfg
  exact ringSeq_ringPush _ _ w hcap hcap' hinv

theorem size_eq_zero_of_rb0Seq_nil (h : rb0Seq s = []) : s.rb0.size = 0 := by
  apply BitVec.eq_of_toNat_eq
  rw [← ringSeq_length s.cfg.rb0Cap Config.rb0PowerOn, show ringSeq _ _ s.rb0 = _ from h]
  rfl

theorem size_ne_zero_of_rb0Seq_cons {x : BitVec 32} {q : List (BitVec 32)} (h : rb0Seq s = x :: q) : s.rb0.size ≠ 0 := by
  intro h0
  have hlen := ringSeq_length s.cfg.rb0Cap Config.rb0PowerOn s.rb0
  rw [show ringSeq _ _ s.rb0 = _ from h, h0] at hlen
  cases hlen

end

/-- Settles O44: a push by `rb0Seq_rbPush`, a pop by `ringSeq_eq_cons`, an index by `ringSeq_getElem?`. -/
theorem ringBufferRefinesABoundedQueue : Obligations.RingBufferRefinesABoundedQueue := by
  intro s hlegal hinv
  obtain ⟨hcap, hcap'⟩ := rb0Cap_range s.cfg
  obtain ⟨-, -, -, -, hring, -⟩ := stateLegal_iff.mp hlegal
  obtain ⟨hhead, -⟩ := ringLegal_iff.mp hring
  refine ⟨fun w => ⟨_, exec_rbPush w hlegal, rfl, rb0Seq_rbPush w hinv⟩,
    fun hnil => exec_rbPop_empty hlegal (size_eq_zero_of_rb0Seq_nil hnil), fun x q hcons => ?pop, fun idx x hat => ?index,
    ⟨_, exec_rbClear hlegal, rfl⟩, ?size⟩
  case pop =>
    have hsize := size_ne_zero_of_rb0Seq_cons hcons
    rw [rb0Seq, ringSeq_eq_cons (fun h => hsize (BitVec.eq_of_toNat_eq h)) hhead hcap hcap'] at hcons
    obtain ⟨rfl, rfl⟩ := List.cons.inj hcons
    refine ⟨_, exec_rbPop_nonempty hlegal hsize, ?_, rfl⟩
    rw [BitVec.ofNat_toNat]
    rfl
  case index =>
    have hidx : idx.toNat < s.rb0.size.toNat := by
      rw [← ringSeq_length s.cfg.rb0Cap Config.rb0PowerOn]
      exact (List.getElem?_eq_some_iff.mp hat).1
    obtain rfl := Option.some.inj ((ringSeq_getElem? hidx).symm.trans hat)
    rw [exec_rbAt_inside hlegal hidx, BitVec.ofNat_toNat]
    rfl
  case size =>
    rw [exec_rbSize hlegal, rb0Seq, ringSeq_length, BitVec.ofNat_toNat]
    rfl

theorem execAll_rbPush (xs : List (BitVec 32)) :
    ∀ {s : State}, stateLegal s = true → RingInv s.cfg.rb0Cap s.rb0 →
      ∃ t, execAll (xs.map .rbPush) s = .next t
        ∧ rb0Seq t = queuePushAll s.cfg.rb0Cap s.cfg.rb0Policy xs (rb0Seq s) := by
  induction xs with
  | nil => exact fun {s} _ _ => ⟨s, rfl, rfl⟩
  | cons x xs ih =>
    intro s hlegal hinv
    obtain ⟨hcap, hcap'⟩ := rb0Cap_range s.cfg
    obtain ⟨t, hrun, hseq⟩ := ih (s := commandEffect (.rbPush x) s) (stateLegal_commandEffect _ hlegal)
      (ringInv_ringPush _ x hcap hcap' hinv)
    refine ⟨t, (execAll_cons _ (exec_rbPush x hlegal)).trans hrun, ?_⟩
    rw [hseq, rb0Seq_rbPush x hinv]
    rfl

/-- Settles O45: the pushes give `queuePushAll` of the empty sequence. -/
theorem pushesKeepTheLastOrTheFirst : Obligations.PushesKeepTheLastOrTheFirst := by
  rintro s xs ⟨hlegal, -, -, hinv, -⟩ hempty
  obtain ⟨hcap, -⟩ := rb0Cap_range s.cfg
  obtain ⟨t, hrun, hseq⟩ := execAll_rbPush xs hlegal hinv
  have hnil : rb0Seq s = [] := by
    apply List.eq_nil_of_length_eq_zero
    rw [rb0Seq, ringSeq_length, hempty]
    rfl
  rw [hnil] at hseq
  refine ⟨t, hrun, fun hpolicy => ?overwrite, fun hpolicy => ?discard⟩
  case overwrite =>
    rw [hseq, hpolicy, queuePushAll_overwrite xs hcap (Nat.zero_le _), List.nil_append, List.length_nil, Nat.zero_add]
  case discard => rw [hseq, hpolicy, queuePushAll_discard xs (Nat.zero_le _), List.nil_append]

/-! ### The MIDI commands, many bytes (R220, R223) -/

section
variable {s : State}

/-- Settles O51: each data byte only adds its OK. -/
theorem dataWithoutAStatusIsDropped : Obligations.DataWithoutAStatusIsDropped := by
  intro s bytes
  induction bytes generalizing s with
  | nil => exact fun _ _ _ => by simp [execAll]
  | cons b bytes ih =>
    intro hlegal hstate hdata
    obtain ⟨hb, hbytes⟩ := List.forall_mem_cons.mp hdata
    have hfirst : exec (.midiParse b) s = .next (respond .ok s) :=
      exec_midiParse_of_parseByte hlegal (parseByte_data_awaitStatus hb hstate)
    rw [List.map_cons, execAll_cons _ hfirst, ih (respond .ok s) hlegal hstate hbytes]
    simp [List.replicate_succ]

/-- Settles O52: the commands that use no buffer leave MQ alone, MIDI.PARSE pushes at most one note, MIDI.POP evicts. -/
theorem mqSizeChangesOnlyByItsEvents : Obligations.MqSizeChangesOnlyByItsEvents := by
  intro i s t hexec
  obtain ⟨hlegal, -, rfl⟩ := exec_eq_next hexec
  obtain ⟨-, -, -, -, -, -, hmq⟩ := stateLegal_iff.mp hlegal
  obtain ⟨-, -, hsize⟩ := ringLegal_iff.mp hmq
  obtain ⟨hcap, hcap'⟩ := mqCap_range s.cfg
  cases i
  case sysReset => exact .inr (.inr (.inr ⟨rfl, rfl⟩))
  case midiParse b =>
    rw [commandEffect, respond_mq]
    obtain ⟨-, -, h⟩ | ⟨-, h⟩ | ⟨-, -, h⟩ | ⟨-, -, h⟩ | ⟨hb, hstate, h⟩ := parseByte_cases b s
    case inr.inr.inr.inr =>
      by_cases hfull : s.mq.size.toNat = s.cfg.mqCap
      · exact .inl (by rw [h, ringPush_full_discard hfull])
      · have hroom : s.mq.size.toNat < s.cfg.mqCap := by omega
        refine .inr (.inl ⟨b, rfl, hb, hstate, hroom, ?_⟩)
        rw [h, ringPush_of_room hfull, ringAppend_size, size_succ_toNat hroom hcap']
    all_goals exact .inl (by rw [h])
  case midiPop =>
    dsimp only [commandEffect]
    split
    · exact .inl rfl
    · obtain ⟨hne, -, rfl⟩ := ringPop_eq_some ‹_›
      refine .inr (.inr (.inl ⟨rfl, ?_⟩))
      rw [respond_mq, ringEvict_size, size_pred_toNat]
      omega
  case rbPop =>
    dsimp only [commandEffect]
    split <;> exact .inl rfl
  case rbPush | rbAt | rbClear | rbSize | midiAvail | midiStat => exact .inl rfl
  all_goals exact .inl (congrArg RingBuf.size (buffers_commandEffect s rfl).2)

theorem ge_of_recognisedStatus {b : BitVec 8} (h : recognisedStatus b = true) : 128 ≤ b.toNat := by
  simp only [recognisedStatus_iff, List.mem_cons, List.not_mem_nil, or_false] at h
  omega

theorem setWidth_toNat_lt (d : BitVec 7) : (d.setWidth 8).toNat < 128 := by
  rw [BitVec.toNat_setWidth_of_le (by decide)]
  exact d.isLt

@[simp] theorem dataValue_setWidth (d : BitVec 7) : dataValue (d.setWidth 8) = d := by
  apply BitVec.eq_of_toNat_eq
  rw [dataValue_toNat_of_lt (setWidth_toNat_lt d), BitVec.toNat_setWidth_of_le (by decide)]

/-- The two data bytes of one message. -/
def dataPair (d : BitVec 7 × BitVec 7) : List Instr := [.midiParse (d.1.setWidth 8), .midiParse (d.2.setWidth 8)]

/-- The state after the first data byte of a message. -/
def afterFirstByte (d : BitVec 7) (s : State) : State := respond .ok { s with mpData1 := d, mpState := .awaitData2 }

/-- The state after both: one note of the status in effect pushed, the parser where it was. -/
def afterDataPair (d : BitVec 7 × BitVec 7) (s : State) : State :=
  respond .ok
    { afterFirstByte d.1 s with
      mq := ringPush s.cfg.mqCap .discard (packNote (kindOf s.mpStatus) d.1 d.2) s.mq
      mpData1 := 0
      mpState := .awaitData1 }

theorem exec_firstByte (d : BitVec 7) (hlegal : stateLegal s = true) (hstate : s.mpState = .awaitData1) :
    exec (.midiParse (d.setWidth 8)) s = .next (afterFirstByte d s) :=
  exec_midiParse_of_parseByte hlegal
    (by rw [parseByte_data_awaitData1 (setWidth_toNat_lt d) hstate, ← dataValue_eq_ofNat, dataValue_setWidth])

theorem exec_secondByte (d : BitVec 7 × BitVec 7) (hlegal : stateLegal (afterFirstByte d.1 s) = true) :
    exec (.midiParse (d.2.setWidth 8)) (afterFirstByte d.1 s) = .next (afterDataPair d s) :=
  exec_midiParse_of_parseByte hlegal
    (by rw [parseByte_data_awaitData2 (setWidth_toNat_lt d.2) rfl, dataValue_setWidth]; rfl)

theorem execAll_dataPair (d : BitVec 7 × BitVec 7) (is : List Instr) (h : BlockInv s) (hstate : s.mpState = .awaitData1) :
    BlockInv (afterDataPair d s) ∧ execAll (dataPair d ++ is) s = execAll is (afterDataPair d s) := by
  obtain ⟨hlegal, -⟩ := id h
  have hfirst := exec_firstByte d.1 hlegal hstate
  have hmiddle : BlockInv (afterFirstByte d.1 s) := blockInv_exec h hfirst
  obtain ⟨hlegal', -⟩ := id hmiddle
  have hsecond := exec_secondByte d hlegal'
  exact ⟨blockInv_exec hmiddle hsecond, (execAll_cons _ hfirst).trans (execAll_cons is hsecond)⟩

theorem mqSeq_afterDataPair (d : BitVec 7 × BitVec 7) (h : BlockInv s) :
    mqSeq (afterDataPair d s) =
      queuePush s.cfg.mqCap .discard (packNote (kindOf s.mpStatus) d.1 d.2) (mqSeq s) := by
  obtain ⟨-, -, -, -, hmq, -⟩ := h
  obtain ⟨hcap, hcap'⟩ := mqCap_range s.cfg
  exact ringSeq_ringPush _ _ _ hcap hcap' hmq

/-- Running status: pairs of data bytes in AWAIT_DATA1 push one note each. -/
theorem execAll_dataPairs (pairs : List (BitVec 7 × BitVec 7)) :
    ∀ {s : State}, BlockInv s → s.mpState = .awaitData1 →
      ∃ t, execAll (pairs.flatMap dataPair) s = .next t
        ∧ mqSeq t =
            queuePushAll s.cfg.mqCap .discard (pairs.map fun d => packNote (kindOf s.mpStatus) d.1 d.2) (mqSeq s)
        ∧ t.mpState = .awaitData1 ∧ t.mpStatus = s.mpStatus ∧ t.mpData1 = 0 := by
  induction pairs with
  | nil =>
    intro s h hstate
    obtain ⟨-, -, -, -, -, ⟨-, -, hdata⟩, -⟩ := h
    exact ⟨s, rfl, rfl, hstate, rfl, hdata (by rw [hstate]; decide)⟩
  | cons d pairs ih =>
    intro s h hstate
    obtain ⟨hafter, hpair⟩ := execAll_dataPair d (pairs.flatMap dataPair) h hstate
    obtain ⟨t, hrun, hseq, hend⟩ := ih hafter rfl
    refine ⟨t, hpair.trans hrun, ?_, hend⟩
    rw [hseq, mqSeq_afterDataPair d h]
    rfl

end

/-- Settles O50: the status byte leads to AWAIT_DATA1 and leaves MQ alone; then `execAll_dataPairs`. -/
theorem runningStatusQueuesOneNotePerPair : Obligations.RunningStatusQueuesOneNotePerPair := by
  intro s st pairs h hst
  obtain ⟨hlegal, -, -, -, ⟨hsize, -⟩, -⟩ := id h
  have hstatus : exec (.midiParse st) s
      = .next (respond .ok { s with mpStatus := st, mpData1 := 0, mpState := .awaitData1 }) :=
    exec_midiParse_of_parseByte hlegal (parseByte_recognised (ge_of_recognisedStatus hst) ((recognisedStatus_iff st).mp hst))
  obtain ⟨t, hrun, hseq, hend⟩ := execAll_dataPairs pairs (blockInv_exec h hstatus) rfl
  have hlen : (mqSeq s).length ≤ s.cfg.mqCap := (ringSeq_length _ _ _).trans_le hsize
  exact ⟨t, (execAll_cons _ hstatus).trans hrun, hseq.trans (queuePushAll_discard _ hlen), hend⟩

end Sys2Proof.Machine
end

/-! ## The primitives' consequences (spec/00_scope.md section 5), the envelope's shape (spec/41_envelope.md section 6), boot -/

section
namespace Sys2Proof.Machine

/-! ### What section 5 of spec/00_scope.md draws from its primitives -/

/-- A larger divisor gives no larger quotient. -/
theorem ceilDiv_anti {a b c : Nat} (hb : 0 < b) (h : b ≤ c) : ceilDiv a c ≤ ceilDiv a b :=
  (ceilDiv_le_iff (hb.trans_le h)).mpr
    (((ceilDiv_le_iff hb).mp le_rfl).trans (Nat.mul_le_mul_right _ h))

theorem le_mul_ceilDiv (a : Nat) {b : Nat} (hb : 0 < b) : a ≤ b * ceilDiv a b := (ceilDiv_le_iff hb).mp le_rfl

theorem mul_ceilDiv_lt (a : Nat) {b : Nat} (hb : 0 < b) : b * ceilDiv a b < a + b := by
  have h := Nat.mul_div_le (a + (b - 1)) b
  rw [ceilDiv]
  omega

theorem rate_anti {t s t' s' : Nat} (h : t * s ≤ t' * s') : rate t' s' ≤ rate t s := by
  by_cases h0 : t * s = 0
  · rw [rate_of_eq_zero h0]
    exact rate_le_ONE t' s'
  · have hpos : 0 < t * s := Nat.pos_of_ne_zero h0
    rw [rate_of_ne_zero h0, rate_of_ne_zero (hpos.trans_le h).ne']
    exact min_le_min_right _ (ceilDiv_anti hpos h)

/-- At 1000 the quotient is ONE, and RATE does not rise. -/
theorem rate_of_le_1000 {t s : Nat} (h : t * s ≤ 1000) : rate t s = ONE := by
  have h1000 : rate 1 1000 = ONE := by decide
  exact le_antisymm (rate_le_ONE t s) (h1000 ▸ rate_anti (t' := 1) (s' := 1000) (by omega))

/-- A multiple of the sample rate added to the frequency adds whole periods to the quotient. -/
theorem phaseDelta_add_mul (f n : Nat) {s : Nat} (hs : 1 ≤ s) :
    phaseDelta (f + n * (s * 2 ^ 16)) s = phaseDelta f s := by
  have hsplit : (f + n * (s * 2 ^ 16)) * 2 ^ 16 = f * 2 ^ 16 + s * (n * 2 ^ 32) := by ring
  rw [phaseDelta, phaseDelta, hsplit, Nat.add_mul_div_left _ _ hs, PH_W, Nat.add_mul_mod_self_right]

theorem phaseDelta_zero (s : Nat) : phaseDelta 0 s = 0 := by
  simp [phaseDelta]

/-- Settles O37: one lemma per sentence. -/
theorem consequencesOfThePrimitives : Obligations.ConsequencesOfThePrimitives := by
  refine ⟨fun t s => rate_of_le_1000, fun t s t' s' => rate_anti, fun f s n hs => ⟨?period, phaseDelta_add_mul f n hs⟩,
    fun c p _ => lutRead_between c p, fun c d p haw hinit hc hd => ?edge⟩
  case period =>
    have h := phaseDelta_add_mul 0 n hs
    rwa [Nat.zero_add, phaseDelta_zero] at h
  case edge =>
    rw [lutRead_of_none p hc, lutRead_of_none p hd]
    simp only [lutEntry, lutIndex, Config.fracW, haw, hinit]

/-! ### The number of attack steps -/

section
variable {t s : Nat} (h : 1 ≤ t * s)
include h

/-- Below saturation RATE is the quotient of R9 or more. -/
theorem ONE_mul_1000_le_rate_mul (hsat : rate t s ≠ ONE) : ONE * 1000 ≤ t * s * rate t s := by
  rw [rate_of_ne_zero (by omega)] at hsat ⊢
  have hceil := le_mul_ceilDiv (ONE * 1000) h
  have hmin : min (ceilDiv (ONE * 1000) (t * s)) ONE = ceilDiv (ONE * 1000) (t * s) := by omega
  rwa [hmin]

/-- RATE is less than one above the quotient of R9. -/
theorem mul_rate_lt : t * s * rate t s < ONE * 1000 + t * s := by
  rw [rate_of_ne_zero (by omega)]
  exact (Nat.mul_le_mul_left _ (min_le_left _ _)).trans_lt (mul_ceilDiv_lt _ h)

/-- The whole number of samples at or above the time wanted. -/
theorem ceilDiv_samples_pos : 0 < ceilDiv (t * s) 1000 := ceilDiv_pos h (by decide)

/-- The attack is never late. -/
theorem attackSteps_le : ceilDiv ONE (rate t s) ≤ ceilDiv (t * s) 1000 := by
  rw [ceilDiv_le_iff (rate_pos t s)]
  have hpos := ceilDiv_samples_pos h
  by_cases hsat : rate t s = ONE
  · rw [hsat]
    exact Nat.le_mul_of_pos_right _ hpos
  · refine Nat.le_of_mul_le_mul_left ?_ (show 0 < 1000 by decide)
    calc 1000 * ONE
        = ONE * 1000 := Nat.mul_comm _ _
      _ ≤ t * s * rate t s := ONE_mul_1000_le_rate_mul h hsat
      _ ≤ 1000 * ceilDiv (t * s) 1000 * rate t s := Nat.mul_le_mul_right _ (le_mul_ceilDiv _ (by decide))
      _ = 1000 * (rate t s * ceilDiv (t * s) 1000) := by ring

/-- It is as long as wanted exactly when one step fewer does not reach ONE. -/
theorem attackSteps_eq_iff :
    ceilDiv ONE (rate t s) = ceilDiv (t * s) 1000 ↔ (ceilDiv (t * s) 1000 - 1) * rate t s < ONE := by
  have hle := attackSteps_le h
  have hpos := ceilDiv_samples_pos h
  have hfewer := ceilDiv_le_iff (a := ONE) (n := ceilDiv (t * s) 1000 - 1) (rate_pos t s)
  rw [Nat.mul_comm (_ - 1), ← Nat.not_le, ← hfewer]
  omega

/-- For a whole number of samples the rate is rounded up by less than one, which costs no step up to 46341 of them:
46340 is the integer square root of ONE. -/
theorem attackSteps_eq_of_whole (hwhole : t * s % 1000 = 0) (hsamples : t * s / 1000 ≤ 46341) :
    ceilDiv ONE (rate t s) = ceilDiv (t * s) 1000 := by
  obtain ⟨k, hts, hk⟩ : ∃ k, t * s = 1000 * (k + 1) ∧ k ≤ 46340 := ⟨t * s / 1000 - 1, by omega, by omega⟩
  have hceil : ceilDiv (t * s) 1000 = k + 1 := by
    rw [ceilDiv]
    omega
  have hlt : (k + 1) * rate t s < ONE + (k + 1) := by
    have := mul_rate_lt h
    rw [hts] at this
    linarith
  rw [attackSteps_eq_iff h, hceil, Nat.add_sub_cancel]
  by_contra hge
  have hsquare : k * k ≤ 46340 * 46340 := Nat.mul_le_mul hk hk
  have hroot : 46340 * 46340 < ONE := by decide
  have hup : (k + 1) * ONE ≤ (k + 1) * (k * rate t s) := Nat.mul_le_mul_left _ (Nat.not_lt.mp hge)
  have hdown : k * ((k + 1) * rate t s) ≤ k * (ONE + k) := Nat.mul_le_mul_left _ (Nat.lt_succ_iff.mp hlt)
  linarith

theorem mul_ONE_lt_attackSteps_mul : t * s * ONE < ceilDiv ONE (rate t s) * (ONE * 1000 + t * s) := by
  have hpos : 0 < ceilDiv ONE (rate t s) := ceilDiv_pos (by decide) (rate_pos t s)
  calc t * s * ONE
      ≤ t * s * (rate t s * ceilDiv ONE (rate t s)) := Nat.mul_le_mul_left _ (le_mul_ceilDiv _ (rate_pos t s))
    _ = ceilDiv ONE (rate t s) * (t * s * rate t s) := by ring
    _ < ceilDiv ONE (rate t s) * (ONE * 1000 + t * s) := Nat.mul_lt_mul_of_pos_left (mul_rate_lt h) hpos

end

/-- Settles O28: `max 1` has no effect because at least one sample is wanted; then one lemma per clause. -/
theorem attackIsNeverLate : Obligations.AttackIsNeverLate := by
  intro t s h
  have hmax : max 1 (ceilDiv (t * s) 1000) = ceilDiv (t * s) 1000 := max_eq_right (ceilDiv_samples_pos h)
  rw [hmax]
  exact ⟨attackSteps_le h, attackSteps_eq_iff h, attackSteps_eq_of_whole h, mul_ONE_lt_attackSteps_mul h⟩

/-! ### A retrigger -/

theorem exec_envGate {s : State} (hlegal : stateLegal s = true) :
    exec .envGate s = .next (respond .ok { s with envPhase := .attack }) :=
  exec_of_legal hlegal trivial

/-- The ATTACK rows of R130 in one: the output rises and saturates at ONE, where the phase is RELEASE. -/
theorem envelopeStep_of_attack {s : State} {a : BitVec 32} (hphase : s.envPhase = .attack) (hrate : s.envArate = some a) :
    (envelopeStep s).envOut.toNat = min (s.envOut.toNat + a.toNat) ONE
      ∧ ((envelopeStep s).envPhase = .release ↔ ONE ≤ s.envOut.toNat + a.toNat) := by
  rcases Nat.lt_or_ge (s.envOut.toNat + a.toNat) ONE with hlt | hle
  · obtain ⟨hphase', hout'⟩ := envelope_of_respondEnv_envelopeAt .attack (hlt.trans ONE_lt_two_pow_32) s
    rw [envelopeStep_of_attack_lt hphase hrate hlt, hphase', hout', min_eq_left hlt.le]
    exact ⟨rfl, iff_of_false nofun (Nat.not_le.mpr hlt)⟩
  · obtain ⟨hphase', hout'⟩ := envelope_of_respondEnv_envelopeAt .release ONE_lt_two_pow_32 s
    rw [envelopeStep_of_attack_le hphase hrate hle, hphase', hout', min_eq_right hle]
    exact ⟨rfl, iff_of_true rfl hle⟩

/-- Settles O29: the gate keeps the output, and the step is `envelopeStep_of_attack`. -/
theorem retriggerContinuesFromTheOutput : Obligations.RetriggerContinuesFromTheOutput := by
  rintro s a hlegal ⟨hout, -, hrelease⟩ hphase hrate
  have hlegal' : stateLegal (respond .ok { s with envPhase := .attack }) = true := hlegal
  obtain ⟨-, ha, -⟩ := stateLegal_iff.mp hlegal
  obtain ⟨hapos, -⟩ := rateLegal_some.mp (hrate ▸ ha)
  obtain ⟨hout', hphase'⟩ := envelopeStep_of_attack (s := respond .ok { s with envPhase := .attack }) rfl hrate
  refine ⟨_, (execAll_cons _ (exec_envGate hlegal)).trans (execAll_cons [] (exec_envStep hlegal')), hout',
    hrelease hphase, fun hne => ?_, hphase'⟩
  rw [hout']
  exact lt_min (Nat.lt_add_of_pos_right hapos) (lt_of_le_of_ne hout hne)

/-! ### One cycle (R139) -/

/-- `k` increments of `r` stay below ONE exactly while `k` is below the step count of `r`. -/
theorem lt_ceilDiv_ONE_iff {k r : Nat} (hr : 1 ≤ r) : k < ceilDiv ONE r ↔ k * r < ONE := by
  rw [← Nat.not_le, ← Nat.not_le, ceilDiv_le_iff hr, Nat.mul_comm]

section
variable {a r k : Nat}

theorem cycle_attack (h : k < ceilDiv ONE a) : cyclePhase a r k = .attack ∧ cycleOut a r k = k * a :=
  ⟨if_pos h, if_pos h⟩

theorem cycle_release (h : ceilDiv ONE a ≤ k) (h' : k < ceilDiv ONE a + ceilDiv ONE r) :
    cyclePhase a r k = .release ∧ cycleOut a r k = ONE - (k - ceilDiv ONE a) * r := by
  simp [cyclePhase, cycleOut, h.not_gt, h']

theorem cycle_idle (h : ceilDiv ONE a + ceilDiv ONE r ≤ k) : cyclePhase a r k = .idle ∧ cycleOut a r k = 0 := by
  have ha : ¬k < ceilDiv ONE a := by omega
  simp [cyclePhase, cycleOut, ha, h.not_gt]

theorem cycleOut_le_ONE (ha : 1 ≤ a) : cycleOut a r k ≤ ONE := by
  unfold cycleOut
  split
  · exact ((lt_ceilDiv_ONE_iff ha).mp ‹_›).le
  · split
    · exact Nat.sub_le _ _
    · exact Nat.zero_le _

end

/-- The response to step `k` of a cycle. -/
def cycleWord (a r k : Nat) : RspWord :=
  responseWord (.okd (BitVec.ofNat 48 (envPhaseCode (cyclePhase a r k) * 2 ^ 32 + cycleOut a r k)))

/-- The state after ENV.GATE and `k` steps of a cycle. -/
def afterCycle (a r k : Nat) (s : State) : State :=
  { s with
    envPhase := cyclePhase a r k
    envOut := BitVec.ofNat 32 (cycleOut a r k)
    out := s.out ++ responseWord .ok :: (List.range k).map (fun j => cycleWord a r (j + 1)) }

section
variable {s : State} {a r : BitVec 32} {k : Nat}

theorem afterCycle_envOut_toNat (ha : 1 ≤ a.toNat) :
    (afterCycle a.toNat r.toNat k s).envOut.toNat = cycleOut a.toNat r.toNat k :=
  envelopeAt_envOut_toNat .idle ((cycleOut_le_ONE ha).trans_lt ONE_lt_two_pow_32) s

/-- An envelope moved to where the cycle is next has answered the next word. -/
theorem respondEnv_envelopeAt_afterCycle {p : EnvPhase} {n : Nat} (ha : 1 ≤ a.toNat)
    (h : cyclePhase a.toNat r.toNat (k + 1) = p ∧ cycleOut a.toNat r.toNat (k + 1) = n) :
    respondEnv (envelopeAt p n (afterCycle a.toNat r.toNat k s)) = afterCycle a.toNat r.toNat (k + 1) s := by
  obtain ⟨rfl, rfl⟩ := h
  rw [respondEnv_envelopeAt _ ((cycleOut_le_ONE ha).trans_lt ONE_lt_two_pow_32)]
  simp [afterCycle, cycleWord, List.range_succ]

section
variable (ha : 1 ≤ a.toNat) (hr : 1 ≤ r.toNat)
include ha hr

theorem envelopeStep_cycle_attack (harate : s.envArate = some a) (hk : k < ceilDiv ONE a.toNat) :
    envelopeStep (afterCycle a.toNat r.toNat k s) = afterCycle a.toNat r.toNat (k + 1) s := by
  obtain ⟨hphase, hcycle⟩ := cycle_attack (r := r.toNat) hk
  have hsum : (afterCycle a.toNat r.toNat k s).envOut.toNat + a.toNat = (k + 1) * a.toNat := by
    rw [afterCycle_envOut_toNat ha, hcycle, Nat.succ_mul]
  rcases Nat.lt_or_ge (k + 1) (ceilDiv ONE a.toNat) with hnext | hnext
  · have hlt : (k + 1) * a.toNat < ONE := (lt_ceilDiv_ONE_iff ha).mp hnext
    rw [envelopeStep_of_attack_lt (s := afterCycle a.toNat r.toNat k s) hphase harate (hsum.trans_lt hlt), hsum]
    exact respondEnv_envelopeAt_afterCycle ha (cycle_attack hnext)
  · have hle : ONE ≤ (k + 1) * a.toNat := Nat.not_lt.mp (mt (lt_ceilDiv_ONE_iff ha).mpr (Nat.not_lt.mpr hnext))
    have hfirst : k + 1 - ceilDiv ONE a.toNat = 0 := by omega
    have hKr : 0 < ceilDiv ONE r.toNat := ceilDiv_pos (by decide) hr
    obtain ⟨hphase', hcycle'⟩ := cycle_release (r := r.toNat) hnext (by omega)
    rw [hfirst, Nat.zero_mul, Nat.sub_zero] at hcycle'
    rw [envelopeStep_of_attack_le (s := afterCycle a.toNat r.toNat k s) hphase harate (hle.trans_eq hsum.symm)]
    exact respondEnv_envelopeAt_afterCycle ha ⟨hphase', hcycle'⟩

theorem envelopeStep_cycle_release (hrrate : s.envRrate = some r) (hk : ceilDiv ONE a.toNat ≤ k)
    (hk' : k < ceilDiv ONE a.toNat + ceilDiv ONE r.toNat) :
    envelopeStep (afterCycle a.toNat r.toNat k s) = afterCycle a.toNat r.toNat (k + 1) s := by
  obtain ⟨hphase, hcycle⟩ := cycle_release hk hk'
  have hout := (afterCycle_envOut_toNat (s := s) (r := r) ha).trans hcycle
  have hsucc : (k + 1 - ceilDiv ONE a.toNat) * r.toNat = (k - ceilDiv ONE a.toNat) * r.toNat + r.toNat := by
    rw [Nat.sub_add_comm hk, Nat.succ_mul]
  have hnextLt := lt_ceilDiv_ONE_iff (k := k + 1 - ceilDiv ONE a.toNat) hr
  rw [hsucc] at hnextLt
  rcases Nat.lt_or_ge (k + 1) (ceilDiv ONE a.toNat + ceilDiv ONE r.toNat) with hnext | hnext
  · have hlt := hnextLt.mp (by omega)
    obtain ⟨hphase', hcycle'⟩ := cycle_release (k := k + 1) (hk.trans (Nat.le_succ k)) hnext
    rw [envelopeStep_of_release_lt (s := afterCycle a.toNat r.toNat k s) hphase hrrate (by omega)]
    exact respondEnv_envelopeAt_afterCycle ha ⟨hphase', by rw [hcycle', hsucc, hout, Nat.sub_sub]⟩
  · have hle := mt hnextLt.mpr (by omega)
    rw [envelopeStep_of_release_le (s := afterCycle a.toNat r.toNat k s) hphase hrrate (by omega)]
    exact respondEnv_envelopeAt_afterCycle ha (cycle_idle hnext)

omit hr in
theorem envelopeStep_cycle_idle (hk : ceilDiv ONE a.toNat + ceilDiv ONE r.toNat ≤ k) :
    envelopeStep (afterCycle a.toNat r.toNat k s) = afterCycle a.toNat r.toNat (k + 1) s := by
  obtain ⟨hphase, hcycle⟩ := cycle_idle hk
  have hstay : envelopeAt .idle 0 (afterCycle a.toNat r.toNat k s) = afterCycle a.toNat r.toNat k s := by
    rw [envelopeAt, afterCycle, hphase, hcycle]
  rw [envelopeStep_of_idle hphase, ← hstay]
  exact respondEnv_envelopeAt_afterCycle ha (cycle_idle (k := k + 1) (hk.trans (Nat.le_succ k)))

/-- One step of a cycle, in each of its three parts. -/
theorem envelopeStep_afterCycle (harate : s.envArate = some a) (hrrate : s.envRrate = some r) :
    envelopeStep (afterCycle a.toNat r.toNat k s) = afterCycle a.toNat r.toNat (k + 1) s := by
  rcases Nat.lt_or_ge k (ceilDiv ONE a.toNat) with hattack | hreached
  · exact envelopeStep_cycle_attack ha hr harate hattack
  · rcases Nat.lt_or_ge k (ceilDiv ONE a.toNat + ceilDiv ONE r.toNat) with hrelease | hidle
    · exact envelopeStep_cycle_release ha hr hrrate hreached hrelease
    · exact envelopeStep_cycle_idle ha hidle

end

/-- The gate starts the cycle at its step 0: at least one step of ATTACK is to come. -/
theorem afterCycle_zero (ha : 1 ≤ a.toNat) (hout : s.envOut = 0) :
    afterCycle a.toNat r.toNat 0 s = respond .ok { s with envPhase := .attack } := by
  obtain ⟨hphase, hcycle⟩ := cycle_attack (r := r.toNat) (ceilDiv_pos (a := ONE) (by decide) ha)
  rw [Nat.zero_mul] at hcycle
  rw [afterCycle, hphase, hcycle, respond, hout]
  rfl

end

theorem execAll_append_of_next (is js : List Instr) :
    ∀ {s t : State}, execAll is s = .next t → execAll (is ++ js) s = execAll js t := by
  induction is with
  | nil =>
    intro s t h
    rw [List.nil_append, Host.Outcome.next.inj h]
  | cons i is ih =>
    intro s t h
    obtain ⟨u, hexec, hrest⟩ := execAll_cons_eq_next h
    exact (execAll_cons _ hexec).trans (ih hrest)

theorem stateLegal_execAll (is : List Instr) :
    ∀ {s t : State}, stateLegal s = true → execAll is s = .next t → stateLegal t = true := by
  induction is with
  | nil => exact fun hlegal h => Host.Outcome.next.inj h ▸ hlegal
  | cons i is ih =>
    intro s t _ h
    obtain ⟨u, hexec, hrest⟩ := execAll_cons_eq_next h
    exact ih (commandsKeepRegistersLegal _ _ _ hexec).2 hrest

/-- Settles O27: the gate by `afterCycle_zero`, each further step by `envelopeStep_afterCycle`. -/
theorem envelopeCycleHasItsShape : Obligations.EnvelopeCycleHasItsShape := by
  intro s a r k hlegal _ hout harate hrrate
  obtain ⟨-, ha, hr, -⟩ := stateLegal_iff.mp hlegal
  obtain ⟨haPos, -⟩ := rateLegal_some.mp (harate ▸ ha)
  obtain ⟨hrPos, -⟩ := rateLegal_some.mp (hrrate ▸ hr)
  suffices hcycle : execAll (.envGate :: List.replicate k .envStep) s = .next (afterCycle a.toNat r.toNat k s) from hcycle
  induction k with
  | zero =>
    rw [afterCycle_zero haPos hout]
    exact execAll_cons [] (exec_envGate hlegal)
  | succ k ih =>
    rw [List.replicate_succ', ← List.cons_append, execAll_append_of_next _ _ ih,
      execAll_cons [] (exec_envStep (stateLegal_execAll _ hlegal ih)), envelopeStep_afterCycle haPos hrPos harate hrrate]
    rfl

/-! ### A booted block (spec/70_reset_and_hazards.md section 2) -/

/-- Only a reset clears a set flag. -/
theorem booted_commandEffect {i : Instr} {s : State} (hlegal : stateLegal s = true) (h : Booted s)
    (hreset : i ≠ .sysReset) : Booted (commandEffect i s) := by
  obtain ⟨hout, -⟩ := stateLegal_iff.mp hlegal
  obtain ⟨ha, hr, hd⟩ := id h
  cases i
  case sysReset => exact absurd rfl hreset
  case envStep =>
    obtain ⟨w, hstep⟩ | ⟨p, n, hstep, -⟩ := envelopeStep_cases hout <;>
      exact (congrArg Booted hstep).mpr h
  case envSeta =>
    dsimp only [commandEffect]
    split
    · exact h
    · exact ⟨rfl, hr, hd⟩
  case envSetr =>
    dsimp only [commandEffect]
    split
    · exact h
    · exact ⟨ha, rfl, hd⟩
  case oscSetsr =>
    dsimp only [commandEffect]
    split
    · exact h
    · refine ⟨ha, hr, ?_⟩
      cases hfreq : s.oscFreq with
      | none => exact hd
      | some f => rfl
  case oscSetf =>
    refine ⟨ha, hr, ?_⟩
    dsimp only [commandEffect]
    cases hsr : s.oscSr with
    | none => exact hd
    | some sr => rfl
  case midiParse b =>
    dsimp only [commandEffect]
    obtain ⟨-, -, hp⟩ | ⟨-, hp⟩ | ⟨-, -, hp⟩ | ⟨-, -, hp⟩ | ⟨-, -, hp⟩ := parseByte_cases b s <;>
      exact (congrArg Booted hp).mpr h
  case envRda | envRdr | oscRdd =>
    dsimp only [commandEffect, respondRegister]
    split <;> exact h
  case oscStep =>
    dsimp only [commandEffect, oscillatorStep]
    split <;> exact h
  case rbPop | midiPop =>
    dsimp only [commandEffect]
    split <;> exact h
  all_goals exact h

/-- Every register that a command answers ERR(UNSET) for is set. -/
theorem errorOf_ne_unset_of_booted {s : State} (h : Booted s) (i : Instr) : errorOf i s ≠ some .unset := by
  obtain ⟨ha, hr, hd⟩ := h
  have hne : ∀ {x : Option (BitVec 32)}, x.isSome = true → x ≠ none := fun hx => Option.isSome_iff_ne_none.mp hx
  rw [ne_eq, errorOf_eq_unset_iff]
  simp [hne ha, hne hr, hne hd]

section
variable {s : State} {sr : BitVec 24}

theorem exec_envSeta_of_ne_zero (t : BitVec 24) (hlegal : stateLegal s = true) (hsr : sr ≠ 0) :
    exec (.envSeta t sr) s = .next (respond .ok { s with envArate := some (rateRegister t sr) }) := by
  rw [exec_of_legal (i := .envSeta t sr) hlegal trivial, commandEffect, if_neg hsr]

theorem exec_envSetr_of_ne_zero (t : BitVec 24) (hlegal : stateLegal s = true) (hsr : sr ≠ 0) :
    exec (.envSetr t sr) s = .next (respond .ok { s with envRrate := some (rateRegister t sr) }) := by
  rw [exec_of_legal (i := .envSetr t sr) hlegal trivial, commandEffect, if_neg hsr]

/-- OSC.SETSR sets the sample rate and no other unit's register, whatever it does to the increment. -/
theorem exec_oscSetsr_of_ne_zero (hlegal : stateLegal s = true) (hsr : sr ≠ 0) :
    ∃ t, exec (.oscSetsr sr) s = .next t ∧ t.oscSr = some sr ∧ t.envArate = s.envArate ∧ t.envRrate = s.envRrate := by
  refine ⟨_, exec_of_legal hlegal trivial, ?_⟩
  rw [commandEffect, if_neg hsr]
  exact ⟨rfl, rfl, rfl⟩

end

/-- Settles O57: a booted block has nothing UNSET to read, and only SYS.RESET unsets; the four setters set all three. -/
theorem bootedBlockNeverAnswersUnset : Obligations.BootedBlockNeverAnswersUnset := by
  refine ⟨fun s i t h hexec => ?booted, fun s ta tr sr w hlegal hsr => ?setters⟩
  case booted =>
    have hword : responseWord (.err .unset) = 0xB000000000000000 := by decide
    obtain ⟨hlegal, -, rfl⟩ := exec_eq_next hexec
    rw [← hword, ne_eq, (answersWith_commandEffect i s).out_eq_err_iff]
    exact ⟨errorOf_ne_unset_of_booted h i, booted_commandEffect hlegal h⟩
  case setters =>
    have hseta := exec_envSeta_of_ne_zero ta hlegal hsr
    obtain ⟨-, hlegal1⟩ := commandsKeepRegistersLegal _ _ _ hseta
    have hsetr := exec_envSetr_of_ne_zero tr hlegal1 hsr
    obtain ⟨-, hlegal2⟩ := commandsKeepRegistersLegal _ _ _ hsetr
    obtain ⟨u, hsetsr, hu, ha, hr⟩ := exec_oscSetsr_of_ne_zero hlegal2 hsr
    obtain ⟨-, hlegal3⟩ := commandsKeepRegistersLegal _ _ _ hsetsr
    have hsetf := exec_oscSetf_of_sr_set w hlegal3 hu
    refine ⟨_, (execAll_cons _ hseta).trans ((execAll_cons _ hsetr).trans ((execAll_cons _ hsetsr).trans
      (execAll_cons [] hsetf))), ⟨?_, ?_, rfl⟩, sr, hu, ha, hr⟩
    · exact (congrArg Option.isSome ha).trans rfl
    · exact (congrArg Option.isSome hr).trans rfl

end Sys2Proof.Machine
end
